-- ==== Sys2Proof/Word.lean ====
section
/-!
DEFINITION. The core's value types: every register value, memory cell, operand byte and address is an
8-bit value (R12), and a register index is 0 to 7 (R20).
-/

namespace Sys2Proof

/-- An 8-bit unsigned value: register contents, memory cells, operand bytes, addresses, `pc`, `FL` (R12). -/
abbrev Byte := BitVec 8

/-- A register index, 0 to 7 (R20). -/
abbrev RegIndex := Fin 8

end Sys2Proof
end

