-- ==== Sys2Proof/Config.lean ====
section
/-!
DEFINITION. The parameters the source leaves open (R10): each is an argument of the model and is fixed for a
run (R36). Their default values stand in Decode.lean, beside the opcode map.
-/

namespace Sys2Proof

/-- The instructions that have a row in the opcode table (R64). The set is closed (R70, R86). -/
inductive Op where
  | hlt | ldi | prn | mul | push | pop | call | ret | cmp | jmp | jeq | jne | add
deriving DecidableEq, Repr

/-- Every row of the opcode table, in the table's order (R64). -/
def Op.all : List Op :=
  [.hlt, .ldi, .prn, .mul, .push, .pop, .call, .ret, .cmp, .jmp, .jeq, .jne, .add]

/-- `OPCODE_MAP` (R10): the opcode byte of each row of R64. -/
structure OpcodeMap where
  hlt : Byte
  ldi : Byte
  prn : Byte
  mul : Byte
  push : Byte
  pop : Byte
  call : Byte
  ret : Byte
  cmp : Byte
  jmp : Byte
  jeq : Byte
  jne : Byte
  add : Byte
deriving DecidableEq, Repr

/-- `FL_LAYOUT` (R10, R26): the bit positions of E, G and L in `FL`. -/
structure FlLayout where
  e : Fin 8
  g : Fin 8
  l : Fin 8
deriving DecidableEq, Repr

/-- `ADDR_OVERFLOW` (R10, R43): what an address computation outside 0 to 255 does. -/
inductive AddrOverflow where
  | wrap   -- modulo 256
  | fault  -- `AddressOverflow`
deriving DecidableEq, Repr

/-- `REG_INDEX_POLICY` (R10, R68): what a register operand byte above 7 does. -/
inductive RegIndexPolicy where
  | fault  -- `BadRegister`
  | low3   -- the operand's bits [2:0]
deriving DecidableEq, Repr

/-- `GPR_RESET` (R10, R22): what R0 to R6 hold after reset. -/
inductive GprReset where
  | unwritten  -- no value; reading one is `UnwrittenRegister`
  | zero       -- the value 0
deriving DecidableEq, Repr

/-- All the parameters of R10. -/
structure Params where
  opcodes : OpcodeMap
  flLayout : FlLayout
  cmpSigned : Bool
  addrOverflow : AddrOverflow
  regIndexPolicy : RegIndexPolicy
  gprReset : GprReset
  addInsn : Bool
deriving DecidableEq, Repr

end Sys2Proof
end

