-- ==== Sys2Proof/Syntax.lean ====
section
/-!
DEFINITION. The instructions: one constructor per row of spec/opcode_table.json, in the table's order. An operand
stays the byte that stands in memory (R61, R66): `reg(o)` (R68) depends on a parameter and is the first line
of each instruction's rule.
-/

namespace Sys2Proof

/-- An instruction: an opcode plus 0, 1 or 2 operand bytes (R60), `a` the first and `b` the second. -/
inductive Instr where
  /-- HALT (R100). -/
  | hlt
  /-- LOAD_IMMEDIATE, `a` a register index, `b` the immediate (R110, R67). -/
  | ldi (a b : Byte)
  /-- PRINT_REGISTER (R101). -/
  | prn (a : Byte)
  /-- MULTIPLY, regA and regB (R121). -/
  | mul (a b : Byte)
  /-- PUSH (R140). -/
  | push (a : Byte)
  /-- POP (R141). -/
  | pop (a : Byte)
  /-- CALL, `a` the register that holds the target (R150). -/
  | call (a : Byte)
  /-- RETURN (R151). -/
  | ret
  /-- COMPARE, regA and regB (R122). -/
  | cmp (a b : Byte)
  /-- JUMP, `a` the register that holds the target (R160). -/
  | jmp (a : Byte)
  /-- JUMP_IF_EQUAL (R161). -/
  | jeq (a : Byte)
  /-- JUMP_IF_NOT_EQUAL (R162). -/
  | jne (a : Byte)
  /-- ADD, regA and regB; present only when `ADD_INSN = true` (R123). -/
  | add (a b : Byte)
deriving DecidableEq, Repr

end Sys2Proof
end

