-- ==== Sys2Proof/Decode.lean ====
section
/-!
DEFINITION. Decoding bytes into an instruction, rejecting by name, and encoding an instruction into bytes, both
from the formats of R61 and the opcode map of R64; the default parameters of R10.
-/

namespace Sys2Proof

/-- The default `OPCODE_MAP` (R64). PRESUMED: the spec takes the byte values from general knowledge of the LS-8
(D1); the operand counts are the source's. Unsafe for a claim that names a byte (log 2). -/
def defaultOpcodeMap : OpcodeMap where
  hlt := 0x01#8
  ldi := 0x82#8
  prn := 0x47#8
  mul := 0xA2#8
  push := 0x45#8
  pop := 0x46#8
  call := 0x50#8
  ret := 0x11#8
  cmp := 0xA7#8
  jmp := 0x54#8
  jeq := 0x55#8
  jne := 0x56#8
  add := 0xA0#8

/-- The default value of every parameter (R10, its column "default"). -/
def defaultParams : Params where
  opcodes := defaultOpcodeMap
  flLayout := { e := 0, g := 2, l := 1 }
  cmpSigned := true
  addrOverflow := .wrap
  regIndexPolicy := .fault
  gprReset := .unwritten
  addInsn := false

/-- The parameters under which every row of spec/opcode_table.json is an instruction: the defaults with
`ADD_INSN = true`, the condition of the table's row ADD (R123). -/
def tableParams : Params := { defaultParams with addInsn := true }

/-- The number of operand bytes of each row: its `OC` column (R64). -/
def Op.operandCount : Op → Nat
  | .hlt => 0
  | .ldi => 2
  | .prn => 1
  | .mul => 2
  | .push => 1
  | .pop => 1
  | .call => 1
  | .ret => 0
  | .cmp => 2
  | .jmp => 1
  | .jeq => 1
  | .jne => 1
  | .add => 2

/-- The opcode byte the map gives a row (R64). -/
def OpcodeMap.byteOf (m : OpcodeMap) : Op → Byte
  | .hlt => m.hlt
  | .ldi => m.ldi
  | .prn => m.prn
  | .mul => m.mul
  | .push => m.push
  | .pop => m.pop
  | .call => m.call
  | .ret => m.ret
  | .cmp => m.cmp
  | .jmp => m.jmp
  | .jeq => m.jeq
  | .jne => m.jne
  | .add => m.add

/-- `opcode[7:6]`, the operand count an opcode byte names; the value 3 (bits `11`) names none (R62). -/
def opcodeOC (op : Byte) : Nat := (op.extractLsb' 6 2).toNat

/-- Is the row an instruction of the core? Every row is, but ADD only when `ADD_INSN = true` (R64, R123). -/
def Op.admitted (p : Params) (k : Op) : Bool := k != .add || p.addInsn

/-- Does the opcode byte `op` select the row `k` of the active map? The row is admitted, its byte is `op`, and `op`
names the row's operand count (R62, R64, R65). The last holds of every row of a legal map; in a map that breaks
R62 the row selects nothing. DESIGN CHOICE, safe (log 21). -/
def selects (p : Params) (op : Byte) (k : Op) : Bool :=
  k.admitted p && (p.opcodes.byteOf k == op) && (opcodeOC op == k.operandCount)

/-- The row an opcode byte selects; `none` is an illegal opcode (R65, R83). -/
def lookupOp (p : Params) (op : Byte) : Option Op := Op.all.find? (selects p op)

/-- Reads a row's operand bytes, giving the instruction and the bytes after it (R61, R66). -/
def takeOperands : Op → List Byte → Option (Instr × List Byte)
  | .hlt, rest => some (.hlt, rest)
  | .ldi, a :: b :: rest => some (.ldi a b, rest)
  | .prn, a :: rest => some (.prn a, rest)
  | .mul, a :: b :: rest => some (.mul a b, rest)
  | .push, a :: rest => some (.push a, rest)
  | .pop, a :: rest => some (.pop a, rest)
  | .call, a :: rest => some (.call a, rest)
  | .ret, rest => some (.ret, rest)
  | .cmp, a :: b :: rest => some (.cmp a b, rest)
  | .jmp, a :: rest => some (.jmp a, rest)
  | .jeq, a :: rest => some (.jeq a, rest)
  | .jne, a :: rest => some (.jne a, rest)
  | .add, a :: b :: rest => some (.add a b, rest)
  | _, _ => none

/-- Why a byte sequence is no instruction. -/
inductive DecodeError where
  /-- There is no opcode byte. -/
  | noByte
  /-- The opcode byte selects no row of the active map (R65). -/
  | illegalOpcode (op : Byte)
  /-- The sequence ends before the operand bytes the opcode names (R61). -/
  | missingOperand (op : Byte)
deriving DecidableEq, Repr

/-- Decodes the instruction at the head of a byte sequence and gives the bytes after it (R61, R64, R65). The whole
opcode byte is matched (R63). -/
def decode (p : Params) : List Byte → Except DecodeError (Instr × List Byte)
  | [] => .error .noByte
  | op :: rest =>
    match lookupOp p op with
    | none => .error (.illegalOpcode op)
    | some k =>
      match takeOperands k rest with
      | none => .error (.missingOperand op)
      | some r => .ok r

/-- The bytes of an instruction, opcode first (R61, R64). -/
def encode (m : OpcodeMap) : Instr → List Byte
  | .hlt => [m.hlt]
  | .ldi a b => [m.ldi, a, b]
  | .prn a => [m.prn, a]
  | .mul a b => [m.mul, a, b]
  | .push a => [m.push, a]
  | .pop a => [m.pop, a]
  | .call a => [m.call, a]
  | .ret => [m.ret]
  | .cmp a b => [m.cmp, a, b]
  | .jmp a => [m.jmp, a]
  | .jeq a => [m.jeq, a]
  | .jne a => [m.jne, a]
  | .add a b => [m.add, a, b]

/-- The three bytes (the longest instruction, R60) of an instruction word numbered as the opcode table numbers it:
the first byte is bits 7..0, the next 15..8, the last 23..16; every bit from `nbits` on is 0. -/
def tableWordBytes (nbits w : Nat) : List Byte :=
  let v := w % 2 ^ nbits
  [BitVec.ofNat 8 v, BitVec.ofNat 8 (v / 2 ^ 8), BitVec.ofNat 8 (v / 2 ^ 16)]

/-- The instruction the decoder reads from a word of the opcode table, under the parameters that admit every row of
the table (log 11). -/
def decodeTableWord (nbits w : Nat) : Option Instr :=
  match decode tableParams (tableWordBytes nbits w) with
  | .ok (i, _) => some i
  | .error _ => none

end Sys2Proof
end

