-- ==== Sys2Proof/Machine/ResetValues.lean ====
section
/-!
DEFINITION. The values of the reset table (R35, R200) that are words, and the parameters a reset core has (R10).
-/

namespace Sys2Proof.Machine

/-- `SP_INIT` (R9, R23, R35). -/
def resetSp : Byte := 0xF4#8

/-- The reset vector (R35, R200). The spec's decision D7; unsafe (log 8). -/
def resetPc : Byte := 0x00#8

/-- `FL` after reset (R35). The spec's decision D8; unsafe (log 9). -/
def resetFl : Byte := 0x00#8

/-- What the storage of R0 to R6 holds after reset: 0 under `GPR_RESET = zero` (R22, R35). Under `unwritten` the
registers hold no value and no instruction can read this one (log 22). -/
def resetGpr : Byte := 0x00#8

/-- The parameters of a reset core: the spec's defaults, with `GPR_RESET = zero`. DESIGN CHOICE, unsafe: the source
gives R0 to R6 no reset value and the spec's default leaves them unwritten; a register of this model holds a
value at reset, so the model resets with the other value R10 gives the parameter (log 7). -/
def resetParams : Params := { defaultParams with gprReset := .zero }

end Sys2Proof.Machine
end

