-- ==== Sys2Proof/Machine/State.lean ====
section
/-!
DEFINITION. The state of the core (10_state.md), as plain data, the state after reset (R35), and the ways a step
or a host operation can stop.
-/

namespace Sys2Proof.Machine

/-- The run state (R30). -/
inductive RunState where
  | ready
  | running
  | halted
  | faulted
deriving DecidableEq, Repr

/-- The fault causes (R171). -/
inductive FaultCause where
  /-- The byte at `pc` is not an opcode of the active map. -/
  | illegalOpcode
  /-- A register operand byte above 7 under `REG_INDEX_POLICY = fault`. -/
  | badRegister
  /-- A read of a register that holds no value (`GPR_RESET = unwritten` only). -/
  | unwrittenRegister
  /-- An address computation outside 0 to 255 under `ADDR_OVERFLOW = fault`. -/
  | addressOverflow
  /-- An ALU operation outside {Add, Multiply, Compare}; no rule raises it (R125). -/
  | unsupportedOperation
deriving DecidableEq, Repr

/-- What `raise <Fault>(info)` carries (R13): the cause and the info of R171's last column, as an unbounded integer
(the opcode byte, the operand byte, the register index, the out-of-range value; none for `UnsupportedOperation`). -/
structure Raise where
  cause : FaultCause
  info : Option Int
deriving DecidableEq, Repr

/-- The fault record (R31, R174). -/
structure FaultRecord where
  cause : FaultCause
  faultPc : Byte
  opcode : Byte
  info : Option Int
deriving DecidableEq, Repr

/-- An event of the output port: a register's index and its value (R92). -/
structure OutEvent where
  index : RegIndex
  value : Byte
deriving DecidableEq, Repr

/-- Memory (R34, R40) as a list of address and byte: addresses strictly rising, below 256, and no entry 0, which is
what an unlisted address reads as (R35, R41: "or 0 if neither has written it"). `Memory.wf` in Ops.lean says so. -/
abbrev Memory := List Host.Cell

/-- The state of the core (R20 to R34), the one bit of host interface state R90 implies (`loaded`), and the
parameters of R10. `params` is not state of the core (R36): it is the model's argument, kept here because a step
is a function of the state alone, and no step changes it. DESIGN CHOICE, safe (log 1). -/
structure State where
  /-- R0 to R7; R7 is the stack pointer (R20, R23). -/
  regs : Vector Byte 8
  /-- Which registers something has written since reset (R22). -/
  written : Vector Bool 8
  /-- The program counter (R25). -/
  pc : Byte
  /-- The flags register (R26). -/
  fl : Byte
  /-- The 256 memory cells (R34). -/
  mem : Memory
  /-- The run state (R30). -/
  runState : RunState
  /-- The fault record; `none` in every run state but Faulted (R31). -/
  faultRecord : Option FaultRecord
  /-- The output events so far, oldest first (R32). -/
  output : List OutEvent
  /-- Has a load happened since reset? (R90) -/
  loaded : Bool
  /-- The parameters of R10. -/
  params : Params
deriving DecidableEq, Repr

/-- The state after reset under given parameters: the table of R35. -/
def State.resetWith (p : Params) : State where
  regs := (Vector.replicate 8 resetGpr).set 7 resetSp
  written := (Vector.replicate 8 (p.gprReset == .zero)).set 7 true
  pc := resetPc
  fl := resetFl
  mem := []
  runState := .ready
  faultRecord := none
  output := []
  loaded := false
  params := p

/-- The machine right after reset (R35, R200), with the parameters `resetParams` names. -/
def State.reset : State := State.resetWith resetParams

/-- Why a step stops without a next state. The core's own faults (R171) are NOT here: their entry is described by
R174, so they are next states whose run state is Faulted. -/
inductive Fault where
  /-- `step` in run state Halted: terminal, no step exists (R81). Raised by `step` alone. Safe. -/
  | stepInHalted
  /-- `step` in run state Faulted: terminal, no step exists (R81). Raised by `step` alone. Safe. -/
  | stepInFaulted
deriving DecidableEq, Repr

/-- What the model refuses. -/
inductive Refusal where
  /-- An instruction with no meaning yet. Raised by no arm of `exec`. Safe. -/
  | notModelled (mnemonic : String)
  /-- `load` of more than 256 bytes, which the interface refuses (R90). Raised by `load`. Safe. -/
  | loadTooLong
  /-- `load` in a run state other than Ready, which the interface refuses (R90). Raised by `load`. Safe. -/
  | loadOutsideReady
  /-- A second `load` since reset, against the precondition of R90. Raised by `load`. Safe. -/
  | loadTwice
deriving DecidableEq, Repr

end Sys2Proof.Machine
end

