-- ==== Sys2Proof/Machine/Ops.lean ====
section
/-!
DEFINITION. The operations every instruction is built from: address computation, memory, registers, the output port, the
pc advance, entering Faulted, and the bytes of the load (R13, R40 to R43, R84, R87, R92, R174).
-/

namespace Sys2Proof.Machine

/-- `u8(n)`: `n mod 256` (R12). -/
def u8 (n : Int) : Byte := BitVec.ofInt 8 n

/-- `raise <Fault>(info)` (R13). -/
def raise {α : Type} (c : FaultCause) (info : Option Int) : Except Raise α := .error { cause := c, info := info }

/-- `addr(n)`: every computed address goes through it (R43). -/
def addr (p : Params) (n : Int) : Except Raise Byte :=
  if 0 ≤ n ∧ n ≤ 255 then .ok (u8 n)
  else
    match p.addrOverflow with
    | .wrap => .ok (u8 n)
    | .fault => raise .addressOverflow (some n)

/-! Memory (R40 to R42, R46). -/

/-- The byte an unlisted address reads as: memory is zero-initialized (R34, R35, R41). -/
def memDefault : Byte := 0x00#8

/-- The byte at an address. -/
def Memory.read : Memory → Nat → Byte
  | [], _ => memDefault
  | (b, w) :: rest, a => if a = b then w else Memory.read rest a

/-- Puts a cell in front of later cells, unless an unlisted address reads as its value. -/
def Memory.cons (a : Nat) (v : Byte) (rest : Memory) : Memory :=
  if v = memDefault then rest else (a, v) :: rest

/-- Sets the byte at an address, in canonical form. -/
def Memory.write : Memory → Nat → Byte → Memory
  | [], a, v => Memory.cons a v []
  | (b, w) :: rest, a, v =>
    if a < b then Memory.cons a v ((b, w) :: rest)
    else if a = b then Memory.cons a v rest
    else (b, w) :: Memory.write rest a v

/-- The canonical form of memory: addresses below 256, strictly rising, and no listed default byte. -/
def Memory.wf : Memory → Bool
  | [] => true
  | (a, v) :: rest =>
    decide (a < 256) && decide (v ≠ memDefault) && rest.all (fun c => decide (a < c.1)) && Memory.wf rest

/-- `MemRead(a, 1)` (R41). -/
def State.memRead (s : State) (a : Byte) : Byte := Memory.read s.mem a.toNat

/-- `MemWrite(a, 1, v)` (R42). -/
def State.memWrite (s : State) (a v : Byte) : State := { s with mem := Memory.write s.mem a.toNat v }

/-- Writes bytes to consecutive cells from `a` on (R90: `MemWrite(i, 1, bytes[i])`). -/
def State.memWriteBytes (s : State) (a : Byte) : List Byte → State
  | [] => s
  | v :: rest => State.memWriteBytes (s.memWrite a v) (a + 1#8) rest

/-! Registers (R13, R20, R22, R23). -/

/-- The stack pointer's index, `SP_REG` (R9, R23). -/
def spReg : RegIndex := 7

/-- Does the register hold no value? Only under `GPR_RESET = unwritten`, and never R7 (R22, R23). -/
def State.isUnwritten (s : State) (i : RegIndex) : Bool :=
  s.params.gprReset == .unwritten && i != spReg && !s.written[i]

/-- `x[i]`: reads a register, raising `UnwrittenRegister` when it holds no value (R13, R22). -/
def State.regRead (s : State) (i : RegIndex) : Except Raise Byte :=
  if s.isUnwritten i then raise .unwrittenRegister (some i.val) else .ok s.regs[i]

/-- `x[i] <- v`: writes a register, which makes it written (R13, R22). -/
def State.regWrite (s : State) (i : RegIndex) (v : Byte) : State :=
  { s with regs := s.regs.set i v, written := s.written.set i true }

/-- `SP`, another name for `x[7]` (R13, R23); it is never unwritten. -/
def State.sp (s : State) : Byte := s.regs[spReg]

/-- `x[7] <- addr(x[7] - 1)` (R140, R150). -/
def State.decSp (s : State) : Except Raise State := do
  let a ← addr s.params (s.sp.toNat - 1)
  .ok (s.regWrite spReg a)

/-- `x[7] <- addr(x[7] + 1)` (R141, R151). -/
def State.incSp (s : State) : Except Raise State := do
  let a ← addr s.params (s.sp.toNat + 1)
  .ok (s.regWrite spReg a)

/-! The pc, the output port, and how an instruction ends. -/

/-- The address of a byte `k` after the instruction's own address, `addr(p + k)` (R43). -/
def State.pcPlus (s : State) (k : Nat) : Except Raise Byte := addr s.params (s.pc.toNat + k)

/-- The pc advance of an instruction with `n` operand bytes that wrote no `pc`: `pc <- addr(p + 1 + n)` (R84). -/
def State.advance (s : State) (n : Nat) : Except Raise State := do
  let q ← s.pcPlus (1 + n)
  .ok { s with pc := q }

/-- An explicit jump: `pc <- target`, with no advance (R84, R85). -/
def State.jumpTo (s : State) (target : Byte) : State := { s with pc := target }

/-- `emit(i, v)`: one event, after every earlier one (R92). -/
def State.emit (s : State) (i : RegIndex) (v : Byte) : State :=
  { s with output := s.output ++ [{ index := i, value := v }] }

/-- TAKING A FAULT (R174): the run state becomes Faulted and the record is written with the cause, the faulting
instruction's address, the byte at that address and the info; nothing else changes. The core has no return from
a fault (R177). -/
def State.enterFault (s : State) (r : Raise) : State :=
  { s with
    runState := .faulted
    faultRecord := some { cause := r.cause, faultPc := s.pc, opcode := s.memRead s.pc, info := r.info } }

/-- An instruction is all or nothing (R87, R173): it completes with all its effects, or it raises and `s`, the state
before it, enters Faulted. -/
def State.complete (s : State) (r : Except Raise State) : Host.Outcome State Fault Refusal :=
  match r with
  | .ok t => .next t
  | .error e => .next (s.enterFault e)

/-- The first step moves Ready to Running (R81); every other run state stays. -/
def State.start (s : State) : State :=
  match s.runState with
  | .ready => { s with runState := .running }
  | .running | .halted | .faulted => s

end Sys2Proof.Machine
end

