-- ==== Sys2Proof/Machine/Flags.lean ====
section
/-!
DEFINITION. The flags register `FL`: its bits E, G and L (R26), what Compare computes (R122), and the one bit an
instruction reads (R28).
-/

namespace Sys2Proof.Machine

/-- The `FL` value with exactly the bit at a position set. -/
def flBit (pos : Fin 8) : Byte := 1#8 <<< pos.val

/-- `FL` with no bit set: what a compare clears to first and a taken conditional jump leaves (R122, R164). -/
def flClear : Byte := 0x00#8

/-- `sval(v)`: the two's-complement reading of a byte (R12). -/
def sval (v : Byte) : Int := if v.toNat < 128 then v.toNat else v.toNat - 256

/-- `cmpval(v)` (R122): `sval(v)` when `CMP_SIGNED = true`, else `v`. -/
def cmpval (p : Params) (v : Byte) : Int := if p.cmpSigned then sval v else v.toNat

/-- The `FL` value of a comparison (R122): `FL` is cleared, then exactly one of E, G, L is set. -/
def compareFlags (p : Params) (x y : Byte) : Byte :=
  let va := cmpval p x
  let vb := cmpval p y
  flClear |||
    (if va = vb then flBit p.flLayout.e
     else if va > vb then flBit p.flLayout.g
     else flBit p.flLayout.l)

/-- `FL.E`, the only bit an instruction reads (R28). -/
def State.flE (s : State) : Bool := s.fl.getLsbD s.params.flLayout.e.val

/-- Sets all of `FL`. -/
def State.setFl (s : State) (v : Byte) : State := { s with fl := v }

end Sys2Proof.Machine
end

