-- ==== Sys2Proof/Machine/Operands.lean ====
section
/-!
DEFINITION. The two operand forms (R64, R67, R68): a register index, and the immediate of LOAD_IMMEDIATE.
-/

namespace Sys2Proof.Machine

/-- An operand byte's bits [2:0] as a register index (R68). -/
def low3 (o : Byte) : RegIndex := (o.extractLsb' 0 3).toFin

/-- `reg(o)`: decodes a register-index operand byte (R68). -/
def regIndex (p : Params) (o : Byte) : Except Raise RegIndex :=
  if o.toNat ≤ 7 then .ok (low3 o)
  else
    match p.regIndexPolicy with
    | .fault => raise .badRegister (some o.toNat)
    | .low3 => .ok (low3 o)

/-- The immediate of LOAD_IMMEDIATE: the operand byte, unchanged (R67). -/
def immediate (o : Byte) : Byte := o

end Sys2Proof.Machine
end

