-- ==== Sys2Proof/Machine/Alu.lean ====
section
/-!
DEFINITION. The ALU and its instructions (43_alu.md): MULTIPLY, COMPARE and ADD.
-/

namespace Sys2Proof.Machine

/-- The ALU's operations, a closed set (R120). A selector outside it cannot be written, so no rule raises
`UnsupportedOperation` (R125). -/
inductive AluOp where
  | add
  | multiply
  | compare
deriving DecidableEq, Repr

/-- What an ALU operation writes: a destination register, `FL`, or neither (R120). -/
structure AluResult where
  dest : Option Byte
  fl : Option Byte
deriving DecidableEq, Repr

/-- The ALU, a pure function of two register values (R120): Add and Multiply wrap modulo 256 and write no `FL`; Compare
writes `FL` and no register. -/
def alu (p : Params) (k : AluOp) (va vb : Byte) : AluResult :=
  match k with
  | .add => { dest := some (u8 (va.toNat + vb.toNat)), fl := none }
  | .multiply => { dest := some (u8 (va.toNat * vb.toNat)), fl := none }
  | .compare => { dest := none, fl := some (compareFlags p va vb) }

/-- Writes an ALU result: register `i` and `FL`, each where the operation has one. -/
def State.putAlu (s : State) (i : RegIndex) (r : AluResult) : State :=
  let s1 := match r.dest with
    | some v => s.regWrite i v
    | none => s
  match r.fl with
  | some f => s1.setFl f
  | none => s1

/-- The form MULTIPLY, COMPARE and ADD share (R121, R122, R123): both indices are decoded, then both registers read,
before anything is written. -/
def aluInstr (k : AluOp) (a b : Byte) (s : State) : Except Raise State := do
  let i ← regIndex s.params a
  let j ← regIndex s.params b
  let va ← s.regRead i
  let vb ← s.regRead j
  (s.putAlu i (alu s.params k va vb)).advance 2

/-- MULTIPLY (R121). -/
def execMul (a b : Byte) (s : State) : Host.Outcome State Fault Refusal := s.complete (aluInstr .multiply a b s)

/-- COMPARE (R122). -/
def execCmp (a b : Byte) (s : State) : Host.Outcome State Fault Refusal := s.complete (aluInstr .compare a b s)

/-- ADD (R123). Its byte is an opcode only when `ADD_INSN = true`, which decoding checks (R65). -/
def execAdd (a b : Byte) (s : State) : Host.Outcome State Fault Refusal := s.complete (aluInstr .add a b s)

end Sys2Proof.Machine
end

