-- ==== Sys2Proof/Machine/Branch.lean ====
section
/-!
DEFINITION. The branch instructions (46_branch.md): JUMP, JUMP_IF_EQUAL and JUMP_IF_NOT_EQUAL.
-/

namespace Sys2Proof.Machine

/-- The form the conditional jumps share (R161, R162): the index is decoded taken or not (R68); a taken jump sets the
pc and clears `FL`; a jump not taken reads no register and advances by 2. -/
def condJump (taken : Bool) (a : Byte) (s : State) : Except Raise State := do
  let i ← regIndex s.params a
  if taken then
    let target ← s.regRead i
    .ok ((s.jumpTo target).setFl flClear)
  else s.advance 1

/-- JUMP (R160). `FL` is unchanged (R164). -/
def execJmp (a : Byte) (s : State) : Host.Outcome State Fault Refusal := s.complete do
  let i ← regIndex s.params a
  let target ← s.regRead i
  .ok (s.jumpTo target)

/-- JUMP_IF_EQUAL (R161): taken when E is 1. -/
def execJeq (a : Byte) (s : State) : Host.Outcome State Fault Refusal := s.complete (condJump s.flE a s)

/-- JUMP_IF_NOT_EQUAL (R162): taken when E is 0. -/
def execJne (a : Byte) (s : State) : Host.Outcome State Fault Refusal := s.complete (condJump (!s.flE) a s)

end Sys2Proof.Machine
end

