-- ==== Sys2Proof/Machine/LoadImmediate.lean ====
section
/-!
DEFINITION. The load-immediate instruction (42_load_immediate.md).
-/

namespace Sys2Proof.Machine

/-- LOAD_IMMEDIATE (R110): it reads no register and makes register `reg(a)` written. -/
def execLdi (a b : Byte) (s : State) : Host.Outcome State Fault Refusal := s.complete do
  let i ← regIndex s.params a
  (s.regWrite i (immediate b)).advance 2

end Sys2Proof.Machine
end

