-- ==== Sys2Proof/Machine/Stack.lean ====
section
/-!
DEFINITION. The stack instructions (44_stack.md): PUSH and POP. Where the operand is R7 each line sees the writes of
the lines before it (R14, the spec's decision D17, log 15).
-/

namespace Sys2Proof.Machine

/-- PUSH (R140). Register `i` is checked before the first write (R173, R175) and read after `SP` has moved, so
`PUSH R7` stores the decremented stack pointer. -/
def execPush (a : Byte) (s : State) : Host.Outcome State Fault Refusal := s.complete do
  let i ← regIndex s.params a
  let _ ← s.regRead i
  let s1 ← s.decSp
  let v ← s1.regRead i
  (s1.memWrite s1.sp v).advance 1

/-- POP (R141). `POP R7` loads `SP` from the cell and then increments the loaded value; under
`ADDR_OVERFLOW = fault` it is that increment which can overflow. DEDUCED, unsafe (log 15). -/
def execPop (a : Byte) (s : State) : Host.Outcome State Fault Refusal := s.complete do
  let i ← regIndex s.params a
  let s1 ← (s.regWrite i (s.memRead s.sp)).incSp
  s1.advance 1

end Sys2Proof.Machine
end

