-- ==== Sys2Proof/Machine/Subroutine.lean ====
section
/-!
DEFINITION. The subroutine instructions (45_call_return.md): CALL and RETURN.
-/

namespace Sys2Proof.Machine

/-- CALL (R150). The return address is `addr(p + 2)`. Register `i` is checked before the first write (R173) and read
after the push, so `CALL R7` jumps to the decremented stack pointer (D17, log 15). The stack address is computed
before the return address, which is the order in which R175 reports their overflows (log 14). -/
def execCall (a : Byte) (s : State) : Host.Outcome State Fault Refusal := s.complete do
  let i ← regIndex s.params a
  let _ ← s.regRead i
  let s1 ← s.decSp
  let ret ← s.pcPlus 2
  let s2 := s1.memWrite s1.sp ret
  let target ← s2.regRead i
  .ok (s2.jumpTo target)

/-- RETURN (R151). -/
def execRet (s : State) : Host.Outcome State Fault Refusal := s.complete (s.jumpTo (s.memRead s.sp)).incSp

end Sys2Proof.Machine
end

