-- ==== Sys2Proof/Machine/System.lean ====
section
/-!
DEFINITION. The system and output instructions (41_system.md): HALT and PRINT_REGISTER.
-/

namespace Sys2Proof.Machine

/-- HALT (R100): the run state becomes Halted; `pc` stays at the HALT (the spec's decision D13, log 13). -/
def execHlt (s : State) : Host.Outcome State Fault Refusal := s.complete (.ok { s with runState := .halted })

/-- PRINT_REGISTER (R101). -/
def execPrn (a : Byte) (s : State) : Host.Outcome State Fault Refusal := s.complete do
  let i ← regIndex s.params a
  let v ← s.regRead i
  (s.emit i v).advance 1

end Sys2Proof.Machine
end

