-- ==== Sys2Proof/Machine/Cycle.lean ====
section
/-!
DEFINITION. The fetch, decode and execute of one instruction (R82, R83, R89), what Step.lean's step calls in the run
states that have a step; and where the host places an instruction word.
-/

namespace Sys2Proof.Machine

/-- The `n` bytes from `addr(p + k)` on, each address computed in turn: the operand bytes of the instruction at `pc` for
`k = 1` and the `n` that `opcode[7:6]` names (R66, R82). No byte the instruction does not own is read (the spec's
decision D15, log 16). -/
def State.fetchBytes (s : State) : Nat → Nat → Except Raise (List Byte)
  | _, 0 => .ok []
  | k, n + 1 => do
    let q ← s.pcPlus k
    let rest ← s.fetchBytes (k + 1) n
    .ok (s.memRead q :: rest)

/-- Fetch and decode (R82, R83): the opcode byte is looked up before an operand is read; no row is `IllegalOpcode`. A
byte that selects a row always finds its operands, so the last arm is never taken. -/
def State.fetch (s : State) : Except Raise Instr :=
  let op := s.memRead s.pc
  let illegal : Except Raise Instr := raise .illegalOpcode (some op.toNat)
  match lookupOp s.params op with
  | none => illegal
  | some _ => do
    let operands ← s.fetchBytes 1 (opcodeOC op)
    match decode s.params (op :: operands) with
    | .ok (i, _) => .ok i
    | .error _ => illegal

/-- One instruction of a core that is Running (R89): fetch, decode, execute. A fault of the fetch or the decode
enters Faulted as one of the execution does (R174). -/
def State.cycle (s : State) : Host.Outcome State Fault Refusal :=
  match s.fetch with
  | .ok i => exec i s
  | .error r => .next (s.enterFault r)

/-- Places the bytes of a table word where the next step fetches, and admits ADD when the first byte is its opcode, since
ADD is fetched only when `ADD_INSN = true` (R123; log 11, log 19). -/
def State.placeWord (s : State) (nbits w : Nat) : State :=
  let bytes := tableWordBytes nbits w
  let t := s.memWriteBytes s.pc bytes
  if bytes.head? = some s.params.opcodes.add then { t with params := { t.params with addInsn := true } } else t

end Sys2Proof.Machine
end

