-- ==== Sys2Proof/Machine/Step.lean ====
section
/-!
DEFINITION. One step (R81, R89), and the host's placing of an instruction where the next step fetches.
-/

namespace Sys2Proof.Machine

/-- `step()` (R81, R89): in Ready the run state first becomes Running; in Halted and Faulted no step exists, and the
step ends in a stuck fault. -/
def step (s : State) : Host.Outcome State Fault Refusal :=
  match s.runState with
  | .ready => s.start.cycle
  | .running => s.start.cycle
  | .halted => .fault .stepInHalted
  | .faulted => .fault .stepInFaulted

/-- The state with an instruction word of the opcode table stored at `pc` (log 19). -/
def State.withFetchWord (s : State) (nbits w : Nat) : State := s.placeWord nbits w

end Sys2Proof.Machine
end

