-- ==== Sys2Proof/Machine/HostPort.lean ====
section
/-!
DEFINITION. The host's side of the core (R80, R90, R94): load, run and status.
-/

namespace Sys2Proof.Machine

/-- `load(bytes)` (R90): in Ready, once since reset, at most 256 bytes, copied to memory from address 0 on
(`LOAD_BASE`, R9). Every other load is refused and loads nothing (the spec's decisions D19 and D21, log 18). -/
def load (bytes : List Byte) (s : State) : Host.Outcome State Fault Refusal :=
  if s.runState ≠ .ready then .refused .loadOutsideReady
  else if s.loaded then .refused .loadTwice
  else if 256 < bytes.length then .refused .loadTooLong
  else .next { s.memWriteBytes 0x00#8 bytes with loaded := true }

/-- The run states in which a run ends (R80, R95). -/
def State.terminal (s : State) : Bool := s.runState == .halted || s.runState == .faulted

/-- `run()` (R80) for at most `k` steps: `step` is repeated until the run state is Halted or Faulted. -/
def runFor : Nat → State → State
  | 0, s => s
  | k + 1, s =>
    if s.terminal then s
    else
      match step s with
      | .next t => runFor k t
      | .fault _ => s
      | .refused _ => s

/-- The status interface (R94): the run state and, in Faulted, the fault record. -/
def State.status (s : State) : RunState × Option FaultRecord :=
  (s.runState, if s.runState = .faulted then s.faultRecord else none)

/-- The numeric code of a cause on the status interface (R171, the spec's decision D11). -/
def causeCode : FaultCause → Nat
  | .illegalOpcode => 1
  | .badRegister => 2
  | .unwrittenRegister => 3
  | .addressOverflow => 4
  | .unsupportedOperation => 5

end Sys2Proof.Machine
end

