-- ==== Sys2Proof/WellFormed.lean ====
section
/-!
DEFINITION. Well-formedness: which instructions decode without a decode fault under given parameters (R83), and
which parameters R10, R26 and R64 allow.
-/

namespace Sys2Proof

/-- The row of the opcode table an instruction belongs to (R64). -/
def Instr.op : Instr → Op
  | .hlt => .hlt
  | .ldi _ _ => .ldi
  | .prn _ => .prn
  | .mul _ _ => .mul
  | .push _ => .push
  | .pop _ => .pop
  | .call _ => .call
  | .ret => .ret
  | .cmp _ _ => .cmp
  | .jmp _ => .jmp
  | .jeq _ => .jeq
  | .jne _ => .jne
  | .add _ _ => .add

/-- The register-index operand bytes of an instruction, in operand order (R64, R67). -/
def Instr.regOperands : Instr → List Byte
  | .hlt => []
  | .ldi a _ => [a]
  | .prn a => [a]
  | .mul a b => [a, b]
  | .push a => [a]
  | .pop a => [a]
  | .call a => [a]
  | .ret => []
  | .cmp a b => [a, b]
  | .jmp a => [a]
  | .jeq a => [a]
  | .jne a => [a]
  | .add a b => [a, b]

/-- The length of an instruction in bytes, `1 + operand_count` (R60, R69). -/
def Instr.length (i : Instr) : Nat := 1 + i.op.operandCount

/-- A legal `OPCODE_MAP` keeps rule R62 for every row and keeps the bytes distinct (R64). -/
abbrev OpcodeMap.WellFormed (m : OpcodeMap) : Prop :=
  (∀ k ∈ Op.all, opcodeOC (m.byteOf k) = k.operandCount) ∧ (Op.all.map m.byteOf).Nodup

/-- A legal `FL_LAYOUT` gives E, G and L three positions (R26). -/
abbrev FlLayout.WellFormed (f : FlLayout) : Prop := f.e ≠ f.g ∧ f.e ≠ f.l ∧ f.g ≠ f.l

/-- The parameters R10 allows. -/
abbrev Params.WellFormed (p : Params) : Prop := p.opcodes.WellFormed ∧ p.flLayout.WellFormed

/-- An instruction is well-formed under `p` when decoding it raises neither `IllegalOpcode` (its row is admitted,
R65) nor `BadRegister` (every register operand byte is at most 7, or `REG_INDEX_POLICY = low3`, R68). -/
def Instr.wellFormed (p : Params) (i : Instr) : Bool :=
  i.op.admitted p && (p.regIndexPolicy == .low3 || i.regOperands.all (fun o => o ≤ 7#8))

end Sys2Proof
end

