-- ==== Sys2Proof/Safety.lean ====
section
/-!
DEFINITION. The terms claims about the core are stated in: when an operand, a register or an address is refused
(R22, R43, R68), what a faulted core looks like (R174), what each instruction reads, writes and computes (R21, R140
to R162, R175), the invariant of every reachable state, and a safe run.
-/

namespace Sys2Proof.Machine

/-- The core can take a step: Ready or Running (R81). -/
abbrev State.CanStep (s : State) : Prop := s.runState = .ready ∨ s.runState = .running

/-- `reg(o)` raises `BadRegister(o)` (R68). -/
abbrev OperandRejected (p : Params) (o : Byte) : Prop := p.regIndexPolicy = .fault ∧ 7 < o.toNat

/-- The register an accepted operand byte names: `o` itself up to 7, else `o[2:0]` (R68). -/
def operandIndex (o : Byte) : RegIndex := ⟨o.toNat % 8, Nat.mod_lt _ (by decide)⟩

/-- Register `i` holds no value (R22, R23). -/
abbrev State.NoValue (s : State) (i : RegIndex) : Prop :=
  s.params.gprReset = .unwritten ∧ i ≠ 7 ∧ s.written[i] = false

/-- `addr(n)` raises `AddressOverflow(n)` (R43). -/
abbrev AddressRejected (p : Params) (n : Int) : Prop := p.addrOverflow = .fault ∧ (n < 0 ∨ 255 < n)

/-- The bit of `FL` the conditional jumps read (R26, R28). -/
abbrev State.equalBit (s : State) : Bool := s.fl.getLsbD s.params.flLayout.e.val

/-- The core after a fault of the instruction at `pc`, with the state before the instruction otherwise (R173, R174). -/
def State.faultedWith (s : State) (cause : FaultCause) (info : Option Int) : State :=
  { s with
    runState := .faulted
    faultRecord := some { cause := cause, faultPc := s.pc, opcode := s.memRead s.pc, info := info } }

/-- The registers whose value an instruction needs, `SP` apart, in operand order (R21; R171, R175). -/
def State.neededRegs (s : State) : Instr → List RegIndex
  | .hlt => []
  | .ldi _ _ => []
  | .prn a => [operandIndex a]
  | .mul a b => [operandIndex a, operandIndex b]
  | .push a => [operandIndex a]
  | .pop _ => []
  | .call a => [operandIndex a]
  | .ret => []
  | .cmp a b => [operandIndex a, operandIndex b]
  | .jmp a => [operandIndex a]
  | .jeq a => if s.equalBit then [operandIndex a] else []
  | .jne a => if s.equalBit then [] else [operandIndex a]
  | .add a b => [operandIndex a, operandIndex b]

/-- The registers an instruction writes (R21). -/
def destinations : Instr → List RegIndex
  | .hlt => []
  | .ldi a _ => [operandIndex a]
  | .prn _ => []
  | .mul a _ => [operandIndex a]
  | .push _ => [7]
  | .pop a => [operandIndex a, 7]
  | .call _ => [7]
  | .ret => [7]
  | .cmp _ _ => []
  | .jmp _ => []
  | .jeq _ => []
  | .jne _ => []
  | .add a _ => [operandIndex a]

/-- The value `POP` increments: the loaded byte for `POP R7`, else the stack pointer (R141). -/
def State.popBase (s : State) (a : Byte) : Byte :=
  if operandIndex a = 7 then s.memRead s.regs[7] else s.regs[7]

/-- The addresses an instruction's execution computes, before any wrapping, in the order R175 reports them: the stack
address, the return address, the pc advance. -/
def State.computedAddresses (s : State) : Instr → List Int
  | .hlt => []
  | .ldi _ _ => [s.pc.toNat + 3]
  | .prn _ => [s.pc.toNat + 2]
  | .mul _ _ => [s.pc.toNat + 3]
  | .push _ => [s.regs[7].toNat - 1, s.pc.toNat + 2]
  | .pop a => [(s.popBase a).toNat + 1, s.pc.toNat + 2]
  | .call _ => [s.regs[7].toNat - 1, s.pc.toNat + 2]
  | .ret => [s.regs[7].toNat + 1]
  | .cmp _ _ => [s.pc.toNat + 3]
  | .jmp _ => []
  | .jeq _ => if s.equalBit then [] else [s.pc.toNat + 2]
  | .jne _ => if s.equalBit then [s.pc.toNat + 2] else []
  | .add _ _ => [s.pc.toNat + 3]

/-- No register operand of the instruction is rejected (R68). -/
abbrev OperandsAccepted (p : Params) (i : Instr) : Prop := ∀ o ∈ i.regOperands, ¬ OperandRejected p o

/-- Every register the instruction needs holds a value (R22). -/
abbrev State.HasValues (s : State) (i : Instr) : Prop := ∀ r ∈ s.neededRegs i, ¬ s.NoValue r

/-- No address the instruction computes is rejected (R43). -/
abbrev State.AddressesAccepted (s : State) (i : Instr) : Prop :=
  ∀ n ∈ s.computedAddresses i, ¬ AddressRejected s.params n

/-- The instruction executes normally: none of its fault conditions holds (R175). -/
abbrev State.Executes (s : State) (i : Instr) : Prop :=
  OperandsAccepted s.params i ∧ s.HasValues i ∧ s.AddressesAccepted i

/-- The invariant of every reachable state: memory is in canonical form, `FL` holds 0 or one of its three bits (R29),
there is a fault record exactly in Faulted (R31), the parameters are legal (R64, R26), R7 is never unwritten (R23), and
under `GPR_RESET = zero` no register is (R22). -/
abbrev State.Inv (s : State) : Prop :=
  Memory.wf s.mem = true ∧
  s.fl ∈ [0#8, flBit s.params.flLayout.e, flBit s.params.flLayout.g, flBit s.params.flLayout.l] ∧
  (s.faultRecord.isSome = true ↔ s.runState = .faulted) ∧
  s.params.WellFormed ∧
  s.written[7] = true ∧
  (s.params.gprReset = .zero → ∀ i : RegIndex, s.written[i] = true)

/-- A run of at most `k` steps is safe when it does not end in Faulted (R95, R170). -/
abbrev SafeFor (k : Nat) (s : State) : Prop := (runFor k s).runState ≠ .faulted

end Sys2Proof.Machine
end

