-- ==== Sys2Proof/Certificates/Slice0/Obligations.lean ====
section
/-!
DEFINITION. What is claimed of the model, one definition a statement. Each docstring names the rules it formalises.
Where a statement rests on a decision of the spec (92_eei_decisions.md) or on a choice of the model, it says so.
A statement ranges over every value of the parameters of R10, unless it names one.
-/

open Sys2Proof Sys2Proof.Machine

/-! ### Reset and the whole machine -/

/-- Reset (R35, R200), for every value of the parameters: R7 is 0xF4, `pc` is 0, `FL` is 0, every cell reads 0, the run
state is Ready, there is no fault record, the output is empty; R0 to R6 hold no value under `GPR_RESET = unwritten`
and 0 under `zero`. The values of R0 to R6, `pc` and `FL` are the spec's decisions D6, D7 and D8; that `State.reset`
takes the defaults but `GPR_RESET = zero` is the model's choice (log 7). -/
def Obligations.ResetLeavesTheTableOfR35 : Prop :=
  (∀ p : Params,
    let s := State.resetWith p
    s.regs[7] = 0xF4#8 ∧ s.pc = 0#8 ∧ s.fl = 0#8 ∧ (∀ a : Byte, s.memRead a = 0#8) ∧ s.runState = .ready ∧
    s.faultRecord = none ∧ s.output = [] ∧ s.loaded = false ∧ s.params = p ∧
    (∀ i : RegIndex, i ≠ 7 → (s.NoValue i ↔ p.gprReset = .unwritten)) ∧
    (p.gprReset = .zero → ∀ i : RegIndex, i ≠ 7 → s.regs[i] = 0#8)) ∧
  State.reset = State.resetWith { defaultParams with gprReset := .zero }

/-- The invariant holds after reset under every legal value of the parameters, and of the model's own reset. -/
def Obligations.ResetMeetsTheInvariant : Prop :=
  (∀ p : Params, p.WellFormed → (State.resetWith p).Inv) ∧ State.reset.Inv

/-- The headline invariant: every step keeps canonical memory, the four legal values of `FL` (R29), a fault record exactly
in Faulted (R31), legal parameters (R36), and R7 (under `GPR_RESET = zero` every register) written (R22, R23). -/
def Obligations.EveryStepKeepsTheInvariant : Prop :=
  ∀ s t : State, s.Inv → step s = .next t → t.Inv

/-- Neither a load nor a run of any length leaves the invariant (R80, R90). -/
def Obligations.LoadAndRunKeepTheInvariant : Prop :=
  (∀ (bytes : List Byte) (s t : State), s.Inv → load bytes s = .next t → t.Inv) ∧
  (∀ (k : Nat) (s : State), s.Inv → (runFor k s).Inv)

/-- R81: `step()` is defined only in Ready and Running, where it answers a next state that is no longer Ready; in Ready it
first sets the run state to Running; in Halted and Faulted it is stuck. -/
def Obligations.StepIsDefinedOnlyInReadyAndRunning : Prop :=
  (∀ s : State, s.CanStep → ∃ t, step s = .next t ∧ t.runState ≠ .ready) ∧
  (∀ s : State, s.runState = .ready → step s = step { s with runState := .running }) ∧
  (∀ s : State, s.runState = .halted → step s = .fault .stepInHalted) ∧
  (∀ s : State, s.runState = .faulted → step s = .fault .stepInFaulted)

/-- A step runs the decoded instruction (R89): when the three bytes from `pc` on decode to `i` and none of the addresses
of `i`'s operand bytes is rejected, `step` is `exec i` of the state with run state Running. -/
def Obligations.StepRunsTheDecodedInstruction : Prop :=
  ∀ (s : State) (i : Instr) (rest : List Byte), s.CanStep →
    decode s.params [s.memRead s.pc, s.memRead (s.pc + 1#8), s.memRead (s.pc + 2#8)] = .ok (i, rest) →
    (∀ k : Nat, 1 ≤ k → k ≤ i.op.operandCount → ¬ AddressRejected s.params (s.pc.toNat + k)) →
    step s = exec i { s with runState := .running }

/-- Every instruction answers a next state on every operand, never a refusal (R86, R87): one whose fault conditions all fail
completes without a fault, and one with a fault condition enters Faulted (R171, R175), which is a next state (R174,
log 12). For `POP R7` the condition is the overflow of the loaded byte's increment, the model's reading of R141 (D17,
log 15). -/
def Obligations.InstructionFaultsExactlyWhenItDoesNotExecute : Prop :=
  ∀ (i : Instr) (s : State), s.runState ≠ .faulted →
    ∃ t, exec i s = .next t ∧ (t.runState ≠ .faulted ↔ s.Executes i)

/-- Faults are precise (R173, R174: the spec's decision D11), and no rule raises `UnsupportedOperation` (R125): a step that
ends in Faulted leaves all but the run state and the record as it was, and the record holds the address and the byte
of the faulting instruction. -/
def Obligations.FaultsArePreciseAndRecorded : Prop :=
  ∀ s t : State, step s = .next t → t.runState = .faulted →
    ∃ (c : FaultCause) (info : Int), c ≠ .unsupportedOperation ∧ t = s.faultedWith c (some info)

/-- The only step into Halted is that of HALT (R30, R85, R100), under every legal opcode map. -/
def Obligations.OnlyHaltEntersHalted : Prop :=
  ∀ s : State, s.CanStep → s.params.WellFormed →
    ((∃ t, step s = .next t ∧ t.runState = .halted) ↔ s.memRead s.pc = s.params.opcodes.hlt)

/-- A run repeats `step` until the run state is Halted or Faulted (R80, R81, R95): no step allowed, no step taken; while the
run has not ended, one more step allowed is one more `step` taken, and it exists; once it has ended, no step exists and
more steps allowed change nothing. -/
def Obligations.RunRepeatsStepUntilItEnds : Prop :=
  (∀ s : State, runFor 0 s = s) ∧
  (∀ (k : Nat) (s : State), (runFor k s).runState ≠ .halted → (runFor k s).runState ≠ .faulted →
    ∃ t, step (runFor k s) = .next t ∧ runFor (k + 1) s = t) ∧
  (∀ (k m : Nat) (s : State), (runFor k s).runState = .halted ∨ (runFor k s).runState = .faulted →
    (∀ t, step (runFor k s) ≠ .next t) ∧ runFor (k + m) s = runFor k s)

/-! ### Encoding -/

/-- Decode and encode agree: under every legal opcode map every admitted instruction, with every value of every operand
byte and any bytes behind it, decodes from its encoding to itself (R61, R64, R66). -/
def Obligations.DecodeOfEncodeIsTheInstruction : Prop :=
  ∀ (p : Params) (i : Instr) (rest : List Byte), p.opcodes.WellFormed → i.op.admitted p = true →
    decode p (encode p.opcodes i ++ rest) = .ok (i, rest)

/-- The other direction: what decodes is the encoding of the instruction it decodes to, followed by the rest; its length is
1 plus the operand count that bits [7:6] of the first byte name (R60, R61, R69). -/
def Obligations.EncodeOfDecodeIsTheBytes : Prop :=
  ∀ (p : Params) (bytes rest : List Byte) (i : Instr), decode p bytes = .ok (i, rest) →
    bytes = encode p.opcodes i ++ rest ∧
    (encode p.opcodes i).length = 1 + opcodeOC (bytes.headD 0#8)

/-- No two rows of a legal map are selected by one byte (R64, R86). -/
def Obligations.AnOpcodeByteSelectsOneRow : Prop :=
  ∀ (p : Params) (op : Byte) (k k' : Op), p.opcodes.WellFormed →
    selects p op k = true → selects p op k' = true → k = k'

/-- R62, under every legal map: a byte that selects a row names that row's operand count in bits [7:6], and a byte with bits
[7:6] = 11 selects none. -/
def Obligations.TopBitsNameTheOperandCount : Prop :=
  ∀ (p : Params) (op : Byte), p.opcodes.WellFormed →
    (∀ k : Op, lookupOp p op = some k → k.operandCount = (op >>> 6).toNat) ∧
    ((op >>> 6).toNat = 3 → lookupOp p op = none)

/-- R65: under the default map (the spec's decision D1, log 2) and `ADD_INSN = false` (D10) the legal bytes are exactly twelve;
and under every value of the parameters a step that fetches a byte no row has enters Faulted with `IllegalOpcode`, the
byte as info, and nothing else changed (R171, R173, R174: D11, log 12). -/
def Obligations.IllegalOpcodesFault : Prop :=
  (∀ op : Byte, (lookupOp defaultParams op).isSome = true ↔
    op ∈ [0x01#8, 0x11#8, 0x45#8, 0x46#8, 0x47#8, 0x50#8, 0x54#8, 0x55#8, 0x56#8, 0x82#8, 0xA2#8, 0xA7#8]) ∧
  (∀ s : State, s.CanStep →
    (∀ k ∈ Op.all, k.admitted s.params = true → s.params.opcodes.byteOf k ≠ s.memRead s.pc) →
    step s = .next (s.faultedWith .illegalOpcode (some (s.memRead s.pc).toNat)))

/-- A few words of the default map (R64, the spec's decision D1) read as the instructions they stand for, one for each
family; the worked encoding of R75 among them. -/
def Obligations.DefaultWordsDecode : Prop :=
  decode defaultParams [0x01#8] = .ok (.hlt, []) ∧
  decode defaultParams [0x82#8, 0x00#8, 0x08#8] = .ok (.ldi 0x00#8 0x08#8, []) ∧
  decode defaultParams [0xA2#8, 0x00#8, 0x01#8] = .ok (.mul 0x00#8 0x01#8, []) ∧
  decode defaultParams [0x47#8, 0x00#8, 0x01#8] = .ok (.prn 0x00#8, [0x01#8]) ∧
  decode defaultParams [0x46#8, 0x03#8] = .ok (.pop 0x03#8, []) ∧
  decode defaultParams [0x50#8, 0x01#8] = .ok (.call 0x01#8, []) ∧
  decode defaultParams [0x56#8, 0x01#8] = .ok (.jne 0x01#8, []) ∧
  decode tableParams [0xA0#8, 0x02#8, 0x03#8] = .ok (.add 0x02#8 0x03#8, []) ∧
  decode defaultParams [0xA0#8, 0x02#8, 0x03#8] = .error (.illegalOpcode 0xA0#8)

/-! ### Faults -/

/-- `BadRegister` (R68, R171, R175): the first register operand byte the policy rejects is the one reported, for every
instruction, taken or not. That it precedes the other faults of the execution is the spec's decision D12. -/
def Obligations.BadRegisterOperandFaults : Prop :=
  ∀ (s : State) (i : Instr) (o : Byte),
    i.regOperands.find? (fun o => decide (OperandRejected s.params o)) = some o →
    exec i s = .next (s.faultedWith .badRegister (some o.toNat))

/-- `UnwrittenRegister` (R22, R171, R175): with every operand accepted, the first register the instruction reads that holds
no value is the one reported (the spec's decisions D6 and D12). -/
def Obligations.UnwrittenRegisterReadFaults : Prop :=
  ∀ (s : State) (i : Instr) (r : RegIndex), OperandsAccepted s.params i →
    (s.neededRegs i).find? (fun r => decide (s.NoValue r)) = some r →
    exec i s = .next (s.faultedWith .unwrittenRegister (some r.val))

/-- `AddressOverflow` of the execution (R43, R171, R175): with every operand accepted and every register read holding a
value, the first computed address outside 0 to 255 is the one reported: stack address, return address, pc advance (the
spec's decisions D4 and D12; for CALL the order of R175, log 14). The stack address of `POP R7` is the loaded byte plus
1, the model's reading of R141 (D17, log 15). -/
def Obligations.ComputedAddressOverflowFaults : Prop :=
  ∀ (s : State) (i : Instr) (n : Int), OperandsAccepted s.params i → s.HasValues i →
    (s.computedAddresses i).find? (fun n => decide (AddressRejected s.params n)) = some n →
    exec i s = .next (s.faultedWith .addressOverflow (some n))

/-- `AddressOverflow` of an operand fetch (R82, R175): the first operand address outside 0 to 255 is reported before the
operands are looked at, under every legal opcode map (the spec's decisions D4, D12 and D15). -/
def Obligations.OperandFetchOverflowFaults : Prop :=
  ∀ (s : State) (k : Op) (n : Int), s.CanStep → s.params.WellFormed → k.admitted s.params = true →
    s.memRead s.pc = s.params.opcodes.byteOf k →
    ([(s.pc.toNat : Int) + 1, (s.pc.toNat : Int) + 2].take k.operandCount).find?
      (fun n => decide (AddressRejected s.params n)) = some n →
    step s = .next (s.faultedWith .addressOverflow (some n))

/-! ### What each instruction does when it executes normally -/

/-- HALT completes: the run state becomes Halted and nothing else changes (R100; that `pc` stays is the spec's D13). -/
def Obligations.HaltCompletes : Prop :=
  ∀ s : State, exec .hlt s = .next { s with runState := .halted }

/-- PRINT_REGISTER completes: one event with the index and the value, after the earlier ones, and the pc advances by 2
(R101, R92). -/
def Obligations.PrintRegisterCompletes : Prop :=
  ∀ (s : State) (a : Byte), s.Executes (.prn a) →
    exec (.prn a) s = .next { s with
      output := s.output ++ [{ index := operandIndex a, value := s.regs[operandIndex a] }]
      pc := s.pc + 2#8 }

/-- LOAD_IMMEDIATE completes: the register holds the operand byte unchanged and is written, and the pc advances by 3
(R110, R67); it needs no register. -/
def Obligations.LoadImmediateCompletes : Prop :=
  ∀ (s : State) (a b : Byte), s.Executes (.ldi a b) →
    exec (.ldi a b) s = .next { s with
      regs := s.regs.set (operandIndex a) b
      written := s.written.set (operandIndex a) true
      pc := s.pc + 3#8 }

/-- MULTIPLY and ADD complete: the first register holds the product or the sum modulo 256, `FL` stays, and the pc advances
by 3 (R121, R123, R124). -/
def Obligations.MultiplyAndAddComplete : Prop :=
  (∀ (s : State) (a b : Byte), s.Executes (.mul a b) →
    exec (.mul a b) s = .next { s with
      regs := s.regs.set (operandIndex a) (s.regs[operandIndex a] * s.regs[operandIndex b])
      written := s.written.set (operandIndex a) true
      pc := s.pc + 3#8 }) ∧
  (∀ (s : State) (a b : Byte), s.Executes (.add a b) →
    exec (.add a b) s = .next { s with
      regs := s.regs.set (operandIndex a) (s.regs[operandIndex a] + s.regs[operandIndex b])
      written := s.written.set (operandIndex a) true
      pc := s.pc + 3#8 })

/-- COMPARE completes: `FL` is exactly E when the two bytes are equal, else G or L by the signed order under
`CMP_SIGNED = true` (the spec's D3) and the unsigned order otherwise; no register changes and the pc advances by 3
(R122). -/
def Obligations.CompareCompletes : Prop :=
  ∀ (s : State) (a b : Byte), s.Executes (.cmp a b) →
    let x := s.regs[operandIndex a]
    let y := s.regs[operandIndex b]
    let greater := if s.params.cmpSigned then y.slt x else y.ult x
    exec (.cmp a b) s = .next { s with
      fl := 1#8 <<< (if x = y then s.params.flLayout.e
        else if greater then s.params.flLayout.g else s.params.flLayout.l).val
      pc := s.pc + 3#8 }

/-- PUSH completes: `SP` goes down by 1 and the cell there holds the register, which for R7 is the decremented `SP` (R140;
the R7 reading is the spec's D17); the pc advances by 2. -/
def Obligations.PushCompletes : Prop :=
  ∀ (s : State) (a : Byte), s.Executes (.push a) →
    exec (.push a) s = .next { s with
      regs := s.regs.set 7 (s.regs[7] - 1#8)
      written := s.written.set 7 true
      mem := Memory.write s.mem (s.regs[7] - 1#8).toNat
        (if operandIndex a = 7 then s.regs[7] - 1#8 else s.regs[operandIndex a])
      pc := s.pc + 2#8 }

/-- POP completes: the register holds the cell at `SP` and `SP` goes up by 1; `POP R7` ends with the loaded byte plus 1
(R141; the R7 reading is the spec's D17, and which increment can overflow is log 15); the pc advances by 2. -/
def Obligations.PopCompletes : Prop :=
  ∀ (s : State) (a : Byte), s.Executes (.pop a) →
    exec (.pop a) s = .next { s with
      regs := (s.regs.set (operandIndex a) (s.memRead s.regs[7])).set 7
        ((if operandIndex a = 7 then s.memRead s.regs[7] else s.regs[7]) + 1#8)
      written := (s.written.set (operandIndex a) true).set 7 true
      pc := s.pc + 2#8 }

/-- CALL completes: `pc + 2` is pushed and the pc is the register's value, which for R7 is the decremented `SP` (R150; the R7
reading is the spec's D17). -/
def Obligations.CallCompletes : Prop :=
  ∀ (s : State) (a : Byte), s.Executes (.call a) →
    exec (.call a) s = .next { s with
      regs := s.regs.set 7 (s.regs[7] - 1#8)
      written := s.written.set 7 true
      mem := Memory.write s.mem (s.regs[7] - 1#8).toNat (s.pc + 2#8)
      pc := if operandIndex a = 7 then s.regs[7] - 1#8 else s.regs[operandIndex a] }

/-- RETURN completes: the pc is the cell at `SP` and `SP` goes up by 1 (R151). -/
def Obligations.ReturnCompletes : Prop :=
  ∀ s : State, s.Executes .ret →
    exec .ret s = .next { s with
      regs := s.regs.set 7 (s.regs[7] + 1#8)
      written := s.written.set 7 true
      pc := s.memRead s.regs[7] }

/-- JUMP completes: the pc is the register's value and `FL` stays (R160). -/
def Obligations.JumpCompletes : Prop :=
  ∀ (s : State) (a : Byte), s.Executes (.jmp a) →
    exec (.jmp a) s = .next { s with pc := s.regs[operandIndex a] }

/-- A taken conditional jump (JUMP_IF_EQUAL with E set, JUMP_IF_NOT_EQUAL with E clear) completes: the pc is the register's
value and `FL` is 0 (R161, R162). -/
def Obligations.TakenConditionalJumpsComplete : Prop :=
  (∀ (s : State) (a : Byte), s.equalBit = true → s.Executes (.jeq a) →
    exec (.jeq a) s = .next { s with pc := s.regs[operandIndex a], fl := 0#8 }) ∧
  (∀ (s : State) (a : Byte), s.equalBit = false → s.Executes (.jne a) →
    exec (.jne a) s = .next { s with pc := s.regs[operandIndex a], fl := 0#8 })

/-- A conditional jump not taken completes: the pc advances by 2 and nothing else changes, whether or not the register holds
a value (R161, R162). -/
def Obligations.ConditionalJumpsNotTakenComplete : Prop :=
  (∀ (s : State) (a : Byte), s.equalBit = false → s.Executes (.jeq a) →
    exec (.jeq a) s = .next { s with pc := s.pc + 2#8 }) ∧
  (∀ (s : State) (a : Byte), s.equalBit = true → s.Executes (.jne a) →
    exec (.jne a) s = .next { s with pc := s.pc + 2#8 })

/-! ### Frames -/

/-- Every register but the instruction's destinations keeps its value and stays written or unwritten (R21), and no
instruction makes a written register unwritten (R22); on a fault the destinations keep theirs too (R173: the spec's
decision D11, log 12). -/
def Obligations.OnlyDestinationRegistersChange : Prop :=
  ∀ (i : Instr) (s t : State), exec i s = .next t →
    (∀ r : RegIndex, r ∉ destinations i → t.regs[r] = s.regs[r] ∧ t.written[r] = s.written[r]) ∧
    (∀ r : RegIndex, s.written[r] = true → t.written[r] = true) ∧
    (s.runState ≠ .faulted → t.runState = .faulted → t.regs = s.regs ∧ t.written = s.written)

/-- R27 and R164, who writes `FL`: a COMPARE that completes leaves exactly one of E, G, L; a taken conditional jump that
completes leaves 0; every other instruction, a conditional jump not taken included, leaves `FL` as it was. That an
instruction that faults leaves `FL` is R173, the spec's decision D11 (log 12). -/
def Obligations.WritersOfTheFlagsRegister : Prop :=
  ∀ (i : Instr) (s t : State), exec i s = .next t →
    (t.runState ≠ .faulted →
      ((∃ a b, i = .cmp a b) → t.fl = 1#8 <<< s.params.flLayout.e.val ∨ t.fl = 1#8 <<< s.params.flLayout.g.val ∨
        t.fl = 1#8 <<< s.params.flLayout.l.val) ∧
      ((∃ a, i = .jeq a) → s.equalBit = true → t.fl = 0#8) ∧
      ((∃ a, i = .jne a) → s.equalBit = false → t.fl = 0#8)) ∧
    ((∃ a, i = .jeq a) → s.equalBit = false → t.fl = s.fl) ∧
    ((∃ a, i = .jne a) → s.equalBit = true → t.fl = s.fl) ∧
    (i.op ≠ .cmp → i.op ≠ .jeq → i.op ≠ .jne → t.fl = s.fl) ∧
    (s.runState ≠ .faulted → t.runState = .faulted → t.fl = s.fl)

/-- Who writes memory (R49): for every form that stores nothing, all but PUSH and CALL, every byte reads as before. -/
def Obligations.NonStoringInstructionsKeepMemory : Prop :=
  ∀ (i : Instr) (s t : State), i.op ≠ .push → i.op ≠ .call → exec i s = .next t →
    ∀ a : Byte, t.memRead a = s.memRead a

/-- PUSH and CALL store one byte (R140, R150, R42): if `addr` gives `a` for `SP - 1`, every other byte reads as before; and
if `addr` raises, every byte does. -/
def Obligations.PushAndCallStoreOneByte : Prop :=
  ∀ (o : Byte) (i : Instr) (s t : State), i = .push o ∨ i = .call o → exec i s = .next t →
    (∀ a : Byte, addr s.params (s.sp.toNat - 1) = .ok a → ∀ b : Byte, b ≠ a → t.memRead b = s.memRead b) ∧
    (∀ e : Raise, addr s.params (s.sp.toNat - 1) = .error e → ∀ b : Byte, t.memRead b = s.memRead b)

/-- R32, the output stream: empty after reset; an executed PRINT_REGISTER adds its one event behind the earlier ones and
nothing else adds any; and the core never reads it: with another output before, every instruction does the same. That the
event is the index and the value is the spec's decision D18 (R92, R101, log 17); that a PRINT_REGISTER that faults adds
nothing is R173, its decision D11 (log 12). -/
def Obligations.OutputStreamIsWrittenByPrintAlone : Prop :=
  (∀ p : Params, (State.resetWith p).output = []) ∧
  (∀ (i : Instr) (s t : State), exec i s = .next t →
    (∀ a, i = .prn a → t.runState ≠ .faulted →
      t.output = s.output ++ [{ index := operandIndex a, value := s.regs[operandIndex a] }]) ∧
    (i.op ≠ .prn → t.output = s.output) ∧
    (s.runState ≠ .faulted → t.runState = .faulted → t.output = s.output)) ∧
  (∀ (i : Instr) (s t : State) (before : List OutEvent), exec i s = .next t →
    exec i { s with output := before } = .next { t with output := before ++ t.output.drop s.output.length })

/-- What no instruction changes but through HALT or a fault: the parameters (R36) and the load bit never, the run state only
to Halted by HALT or to Faulted, the fault record only on a fault (R30, R31); a fault keeps the pc (R173, R174: the
spec's decision D11, log 12). -/
def Obligations.ControlStateFrame : Prop :=
  ∀ (i : Instr) (s t : State), exec i s = .next t →
    t.params = s.params ∧ t.loaded = s.loaded ∧
    (t.runState = s.runState ∨ t.runState = .faulted ∨ (i = .hlt ∧ t.runState = .halted)) ∧
    (t.runState ≠ .faulted → t.faultRecord = s.faultRecord) ∧
    (t.runState = .faulted → s.runState ≠ .faulted → t.pc = s.pc)

/-- The pc (R84, R85): an instruction that completes and writes no pc advances by 1 plus its operand count, HALT stays (the
spec's D13), and a conditional jump not taken advances by exactly 2. -/
def Obligations.PcAdvancesByTheLength : Prop :=
  ∀ (i : Instr) (s t : State), exec i s = .next t → t.runState ≠ .faulted →
    (i.op ∉ [Op.hlt, .call, .ret, .jmp, .jeq, .jne] → t.pc = s.pc + 1#8 + BitVec.ofNat 8 i.op.operandCount) ∧
    (i = .hlt → t.pc = s.pc) ∧
    ((∃ a, i = .jeq a) → s.equalBit = false → t.pc = s.pc + 2#8) ∧
    ((∃ a, i = .jne a) → s.equalBit = true → t.pc = s.pc + 2#8)

/-- No program can observe G, L or the signedness of COMPARE (R28, R122; the decisions D2 and D3): two states that differ in
`FL` outside E, and in `CMP_SIGNED`, take the same step but for those. -/
def Obligations.OnlyTheEqualBitIsObservable : Prop :=
  ∀ (i : Instr) (s t : State) (f : Byte) (signed : Bool), s.params.flLayout.WellFormed →
    f.getLsbD s.params.flLayout.e.val = s.equalBit → exec i s = .next t →
    ∃ t', exec i { s with fl := f, params := { s.params with cmpSigned := signed } } = .next t' ∧
      t'.equalBit = t.equalBit ∧ { t' with fl := t.fl, params := t.params } = t

/-! ### Memory, the ALU and the load -/

/-- R41 and R42: a write sets its cell and changes nothing else, a read returns the last value written there by a write or by
the load, and 0 if neither has written it. Memory is in its canonical form, which `EveryStepKeepsTheInvariant` keeps. -/
def Obligations.MemoryReadsTheLastWrite : Prop :=
  (∀ (p : Params) (a : Byte), (State.resetWith p).memRead a = 0#8) ∧
  (∀ (s : State) (a v b : Byte), Memory.wf s.mem = true →
    (s.memWrite a v).memRead b = if b = a then v else s.memRead b) ∧
  (∀ (s : State) (a v : Byte), { s.memWrite a v with mem := s.mem } = s) ∧
  (∀ (bytes : List Byte) (s t : State) (b : Byte), Memory.wf s.mem = true → load bytes s = .next t →
    t.memRead b = bytes.getD b.toNat (s.memRead b))

/-- R120: Add and Multiply wrap modulo 256 and write no `FL`; Compare writes the `FL` value of R122 and no register; there is no
fourth operation. -/
def Obligations.TheAluHasThreeOperations : Prop :=
  ∀ (p : Params) (k : AluOp) (va vb : Byte),
    (k = .add ∧ alu p k va vb = { dest := some (BitVec.ofNat 8 ((va.toNat + vb.toNat) % 256)), fl := none }) ∨
    (k = .multiply ∧ alu p k va vb = { dest := some (BitVec.ofNat 8 ((va.toNat * vb.toNat) % 256)), fl := none }) ∨
    (k = .compare ∧ alu p k va vb =
      { dest := none
        fl := some (1#8 <<< (if va = vb then p.flLayout.e
          else if (if p.cmpSigned then vb.slt va else vb.ult va) then p.flLayout.g else p.flLayout.l).val) })

/-- The load copies the program to address 0 on and changes nothing else of the core (R90; the refusals are the spec's D19
and D21); the model's bit `loaded`, which R90's precondition implies (log 18), says from then on that it happened. -/
def Obligations.LoadCopiesTheProgram : Prop :=
  ∀ (bytes : List Byte) (s : State), s.Inv → s.runState = .ready → s.loaded = false → bytes.length ≤ 256 →
    ∃ t, load bytes s = .next t ∧ (∀ a : Byte, t.memRead a = bytes.getD a.toNat (s.memRead a)) ∧
      t.loaded = true ∧ { t with mem := s.mem, loaded := false } = s

/-- The load interface refuses a load outside Ready, a second load, and one of more than 256 bytes (R90, D19, D21); and after
one accepted load it refuses every other, at once and after a run of any length. -/
def Obligations.LoadIsRefusedOutsideItsContract : Prop :=
  (∀ (bytes : List Byte) (s : State),
    ((∃ r, load bytes s = .refused r) ↔ ¬ (s.runState = .ready ∧ s.loaded = false ∧ bytes.length ≤ 256)) ∧
    ((∃ t, load bytes s = .next t) ↔ (s.runState = .ready ∧ s.loaded = false ∧ bytes.length ≤ 256))) ∧
  (∀ (bytes : List Byte) (s t : State), load bytes s = .next t →
    ∀ (k : Nat) (later : List Byte), ∃ r, load later (runFor k t) = .refused r)

/-! ### Laws over two instructions -/

/-- The round-trip law (R143): PUSH r then POP r, r = 7 included, leaves the registers and `SP` as they were and the pushed value
in the cell below the stack top, if that cell is not one of the POP's two bytes. -/
def Obligations.PushThenPopRoundTrip : Prop :=
  ∀ (s : State) (a : Byte), s.CanStep → s.Inv → ¬ OperandRejected s.params a → ¬ s.NoValue (operandIndex a) →
    (s.params.addrOverflow = .wrap ∨ (s.pc.toNat + 4 ≤ 255 ∧ 1 ≤ s.regs[7].toNat)) →
    s.memRead s.pc = s.params.opcodes.push → s.memRead (s.pc + 1#8) = a →
    s.memRead (s.pc + 2#8) = s.params.opcodes.pop → s.memRead (s.pc + 3#8) = a →
    s.regs[7] - 1#8 ≠ s.pc + 2#8 → s.regs[7] - 1#8 ≠ s.pc + 3#8 →
    ∃ t u, step s = .next t ∧ step t = .next u ∧ u.regs = s.regs ∧ u.pc = s.pc + 4#8 ∧ u.fl = s.fl ∧
      u.memRead (s.regs[7] - 1#8) = (if operandIndex a = 7 then s.regs[7] - 1#8 else s.regs[operandIndex a])

/-- A RETURN after a CALL, with nothing between, comes back behind the CALL with the registers as they were (R150, R151,
R152). -/
def Obligations.ReturnAfterCallComesBack : Prop :=
  ∀ (s : State) (a : Byte), Memory.wf s.mem = true → s.Executes (.call a) →
    ∃ t u, exec (.call a) s = .next t ∧ exec .ret t = .next u ∧ u.pc = s.pc + 2#8 ∧ u.regs = s.regs ∧ u.fl = s.fl ∧
      u.output = s.output ∧ u.runState = s.runState

/-- LOAD_IMMEDIATE then PRINT_REGISTER outputs exactly the value, for every register and value, written before or not
(R101, R110; worked example W1). -/
def Obligations.LoadImmediateThenPrintOutputsTheValue : Prop :=
  ∀ (s : State) (a v : Byte), s.CanStep → s.Inv → ¬ OperandRejected s.params a →
    (s.params.addrOverflow = .wrap ∨ s.pc.toNat + 5 ≤ 255) →
    s.memRead s.pc = s.params.opcodes.ldi → s.memRead (s.pc + 1#8) = a → s.memRead (s.pc + 2#8) = v →
    s.memRead (s.pc + 3#8) = s.params.opcodes.prn → s.memRead (s.pc + 4#8) = a →
    ∃ t u, step s = .next t ∧ step t = .next u ∧ u.pc = s.pc + 5#8 ∧
      u.output = s.output ++ [{ index := operandIndex a, value := v }]

/-- The next fetch sees the store before it (R52, R204; the spec's D9, log 10). A PUSH or a CALL that completes puts `v` into
the cell `c` below the stack top, and the next step fetches at `q`. Whatever the byte, the cell and the operand, R7
included (D17, log 15): when the three bytes from `q` on, `v` for the cell `c` and the bytes of before elsewhere, decode to
`j` and no operand address of `j` is rejected, the next step is `exec j`; and when the byte at `q`, so read, selects no row,
the next step is the `IllegalOpcode` fault of that byte. -/
def Obligations.NextFetchSeesThePushedByte : Prop :=
  ∀ (s : State) (i : Instr) (o v q : Byte) (rest : List Byte), s.CanStep → Memory.wf s.mem = true →
    let c := s.regs[7] - 1#8
    let operand := if operandIndex o = 7 then c else s.regs[operandIndex o]
    (i = .push o ∧ v = operand ∧ q = s.pc + 2#8) ∨ (i = .call o ∧ v = s.pc + 2#8 ∧ q = operand) →
    decode s.params [s.memRead s.pc, s.memRead (s.pc + 1#8), s.memRead (s.pc + 2#8)] = .ok (i, rest) →
    ¬ AddressRejected s.params (s.pc.toNat + 1) → s.Executes i →
    let seen := fun a : Byte => if a = c then v else s.memRead a
    ∃ t, step s = .next t ∧ t.runState = .running ∧ t.pc = q ∧
      (∀ (j : Instr) (rest' : List Byte),
        decode s.params [seen q, seen (q + 1#8), seen (q + 2#8)] = .ok (j, rest') →
        (∀ k : Nat, 1 ≤ k → k ≤ j.op.operandCount → ¬ AddressRejected s.params (q.toNat + k)) →
        step t = exec j t) ∧
      (lookupOp s.params (seen q) = none →
        step t = .next (t.faultedWith .illegalOpcode (some (seen q).toNat)))
end

