-- ==== Sys2Proof/Laws/State.lean ====
section
/-!
SUPPORT. What each update of the state leaves in each field: one lemma a field an update, true by `rfl`, so that no
later proof unfolds a record update.
-/

namespace Sys2Proof.Machine

variable (s : State)

/-! `State.memWrite` -/
@[simp] theorem memWrite_regs (a v : Byte) : (s.memWrite a v).regs = s.regs := rfl
@[simp] theorem memWrite_written (a v : Byte) : (s.memWrite a v).written = s.written := rfl
@[simp] theorem memWrite_pc (a v : Byte) : (s.memWrite a v).pc = s.pc := rfl
@[simp] theorem memWrite_fl (a v : Byte) : (s.memWrite a v).fl = s.fl := rfl
@[simp] theorem memWrite_mem (a v : Byte) : (s.memWrite a v).mem = Memory.write s.mem a.toNat v := rfl
@[simp] theorem memWrite_runState (a v : Byte) : (s.memWrite a v).runState = s.runState := rfl
@[simp] theorem memWrite_faultRecord (a v : Byte) : (s.memWrite a v).faultRecord = s.faultRecord := rfl
@[simp] theorem memWrite_output (a v : Byte) : (s.memWrite a v).output = s.output := rfl
@[simp] theorem memWrite_loaded (a v : Byte) : (s.memWrite a v).loaded = s.loaded := rfl
@[simp] theorem memWrite_params (a v : Byte) : (s.memWrite a v).params = s.params := rfl

/-! `State.regWrite` -/
@[simp] theorem regWrite_regs (i : RegIndex) (v : Byte) : (s.regWrite i v).regs = s.regs.set i v := rfl
@[simp] theorem regWrite_written (i : RegIndex) (v : Byte) : (s.regWrite i v).written = s.written.set i true := rfl
@[simp] theorem regWrite_pc (i : RegIndex) (v : Byte) : (s.regWrite i v).pc = s.pc := rfl
@[simp] theorem regWrite_fl (i : RegIndex) (v : Byte) : (s.regWrite i v).fl = s.fl := rfl
@[simp] theorem regWrite_mem (i : RegIndex) (v : Byte) : (s.regWrite i v).mem = s.mem := rfl
@[simp] theorem regWrite_runState (i : RegIndex) (v : Byte) : (s.regWrite i v).runState = s.runState := rfl
@[simp] theorem regWrite_faultRecord (i : RegIndex) (v : Byte) : (s.regWrite i v).faultRecord = s.faultRecord := rfl
@[simp] theorem regWrite_output (i : RegIndex) (v : Byte) : (s.regWrite i v).output = s.output := rfl
@[simp] theorem regWrite_loaded (i : RegIndex) (v : Byte) : (s.regWrite i v).loaded = s.loaded := rfl
@[simp] theorem regWrite_params (i : RegIndex) (v : Byte) : (s.regWrite i v).params = s.params := rfl

/-! `State.jumpTo` -/
@[simp] theorem jumpTo_regs (q : Byte) : (s.jumpTo q).regs = s.regs := rfl
@[simp] theorem jumpTo_written (q : Byte) : (s.jumpTo q).written = s.written := rfl
@[simp] theorem jumpTo_pc (q : Byte) : (s.jumpTo q).pc = q := rfl
@[simp] theorem jumpTo_fl (q : Byte) : (s.jumpTo q).fl = s.fl := rfl
@[simp] theorem jumpTo_mem (q : Byte) : (s.jumpTo q).mem = s.mem := rfl
@[simp] theorem jumpTo_runState (q : Byte) : (s.jumpTo q).runState = s.runState := rfl
@[simp] theorem jumpTo_faultRecord (q : Byte) : (s.jumpTo q).faultRecord = s.faultRecord := rfl
@[simp] theorem jumpTo_output (q : Byte) : (s.jumpTo q).output = s.output := rfl
@[simp] theorem jumpTo_loaded (q : Byte) : (s.jumpTo q).loaded = s.loaded := rfl
@[simp] theorem jumpTo_params (q : Byte) : (s.jumpTo q).params = s.params := rfl

/-! `State.emit` -/
@[simp] theorem emit_regs (i : RegIndex) (v : Byte) : (s.emit i v).regs = s.regs := rfl
@[simp] theorem emit_written (i : RegIndex) (v : Byte) : (s.emit i v).written = s.written := rfl
@[simp] theorem emit_pc (i : RegIndex) (v : Byte) : (s.emit i v).pc = s.pc := rfl
@[simp] theorem emit_fl (i : RegIndex) (v : Byte) : (s.emit i v).fl = s.fl := rfl
@[simp] theorem emit_mem (i : RegIndex) (v : Byte) : (s.emit i v).mem = s.mem := rfl
@[simp] theorem emit_runState (i : RegIndex) (v : Byte) : (s.emit i v).runState = s.runState := rfl
@[simp] theorem emit_faultRecord (i : RegIndex) (v : Byte) : (s.emit i v).faultRecord = s.faultRecord := rfl
@[simp] theorem emit_output (i : RegIndex) (v : Byte) : (s.emit i v).output = s.output ++ [{ index := i, value := v }] := rfl
@[simp] theorem emit_loaded (i : RegIndex) (v : Byte) : (s.emit i v).loaded = s.loaded := rfl
@[simp] theorem emit_params (i : RegIndex) (v : Byte) : (s.emit i v).params = s.params := rfl

/-! `State.setFl` -/
@[simp] theorem setFl_regs (f : Byte) : (s.setFl f).regs = s.regs := rfl
@[simp] theorem setFl_written (f : Byte) : (s.setFl f).written = s.written := rfl
@[simp] theorem setFl_pc (f : Byte) : (s.setFl f).pc = s.pc := rfl
@[simp] theorem setFl_fl (f : Byte) : (s.setFl f).fl = f := rfl
@[simp] theorem setFl_mem (f : Byte) : (s.setFl f).mem = s.mem := rfl
@[simp] theorem setFl_runState (f : Byte) : (s.setFl f).runState = s.runState := rfl
@[simp] theorem setFl_faultRecord (f : Byte) : (s.setFl f).faultRecord = s.faultRecord := rfl
@[simp] theorem setFl_output (f : Byte) : (s.setFl f).output = s.output := rfl
@[simp] theorem setFl_loaded (f : Byte) : (s.setFl f).loaded = s.loaded := rfl
@[simp] theorem setFl_params (f : Byte) : (s.setFl f).params = s.params := rfl

/-! `State.enterFault` -/
@[simp] theorem enterFault_regs (r : Raise) : (s.enterFault r).regs = s.regs := rfl
@[simp] theorem enterFault_written (r : Raise) : (s.enterFault r).written = s.written := rfl
@[simp] theorem enterFault_pc (r : Raise) : (s.enterFault r).pc = s.pc := rfl
@[simp] theorem enterFault_fl (r : Raise) : (s.enterFault r).fl = s.fl := rfl
@[simp] theorem enterFault_mem (r : Raise) : (s.enterFault r).mem = s.mem := rfl
@[simp] theorem enterFault_runState (r : Raise) : (s.enterFault r).runState = .faulted := rfl
@[simp] theorem enterFault_faultRecord (r : Raise) : (s.enterFault r).faultRecord =
    some { cause := r.cause, faultPc := s.pc, opcode := s.memRead s.pc, info := r.info } := rfl
@[simp] theorem enterFault_output (r : Raise) : (s.enterFault r).output = s.output := rfl
@[simp] theorem enterFault_loaded (r : Raise) : (s.enterFault r).loaded = s.loaded := rfl
@[simp] theorem enterFault_params (r : Raise) : (s.enterFault r).params = s.params := rfl

/-- Entering a fault is the faulted core of the claims. -/
theorem enterFault_eq_faultedWith (r : Raise) : s.enterFault r = s.faultedWith r.cause r.info := rfl

/-- In a run state with a step, `start` makes the run state Running and changes nothing else (R81). -/
theorem start_of_canStep (h : s.CanStep) : s.start = { s with runState := .running } := by
  obtain ⟨regs, written, pc, fl, mem, rs, fr, out, ld, p⟩ := s
  rcases h with h | h <;> simp only at h <;> subst h <;> rfl

/-- In a run state with a step, `step` is one cycle of the Running core. -/
theorem step_of_canStep (h : s.CanStep) : step s = State.cycle { s with runState := .running } := by
  rw [← start_of_canStep s h]
  rcases h with h | h <;> simp [step, h]

end Sys2Proof.Machine
end

