-- ==== Sys2Proof/Laws/Memory.lean ====
section
/-!
SUPPORT. The laws of memory (R41, R42): a read after a write, and that every memory operation keeps the canonical form.
-/

namespace Sys2Proof.Machine

/-- The canonical form, one cell at a time. -/
theorem Memory.wf_cons {a : Nat} {v : Byte} {rest : Memory} :
    Memory.wf ((a, v) :: rest) = true ↔
      a < 256 ∧ v ≠ memDefault ∧ (∀ c ∈ rest, a < c.1) ∧ Memory.wf rest = true := by
  simp [Memory.wf, and_assoc]

/-- An address below every listed one reads as the default. -/
theorem Memory.read_of_below {rest : Memory} {a : Nat} (h : ∀ c ∈ rest, a < c.1) :
    Memory.read rest a = memDefault := by
  induction rest with
  | nil => rfl
  | cons c rest ih =>
    obtain ⟨b, w⟩ := c
    have hb : a < b := h (b, w) (by simp)
    simp only [Memory.read, if_neg (Nat.ne_of_lt hb)]
    exact ih fun c hc => h c (by simp [hc])

/-- Reading through `Memory.cons` when the address is below the rest. -/
theorem Memory.read_cons {rest : Memory} {a b : Nat} {v : Byte} (h : ∀ c ∈ rest, a < c.1) :
    Memory.read (Memory.cons a v rest) b = if b = a then v else Memory.read rest b := by
  unfold Memory.cons
  split
  · next hv =>
    subst hv
    split
    · next hb => subst hb; exact Memory.read_of_below h
    · rfl
  · rfl

/-- A read after a write, in canonical memory: the written byte there, every other byte as before. -/
theorem Memory.read_write {m : Memory} (hm : Memory.wf m = true) (a b : Nat) (v : Byte) :
    Memory.read (Memory.write m a v) b = if b = a then v else Memory.read m b := by
  induction m with
  | nil => exact Memory.read_cons (by simp)
  | cons c rest ih =>
    obtain ⟨d, w⟩ := c
    obtain ⟨_, _, hlt, hrest⟩ := Memory.wf_cons.1 hm
    simp only [Memory.write]
    split
    · next had =>
      rw [Memory.read_cons]
      intro c hc
      rcases List.mem_cons.1 hc with rfl | hc
      · exact had
      · exact Nat.lt_trans had (hlt c hc)
    · split
      · next had =>
        subst had
        rw [Memory.read_cons hlt]
        simp only [Memory.read]
        split <;> simp_all
      · next hne =>
        simp only [Memory.read, ih hrest]
        split
        · next hbd => rw [if_neg]; omega
        · rfl

/-- The address of a byte that a write did not name reads as before, in any memory. -/
theorem Memory.read_write_of_ne (m : Memory) {a b : Nat} (v : Byte) (h : b ≠ a) :
    Memory.read (Memory.write m a v) b = Memory.read m b := by
  have hc : ∀ rest : Memory, Memory.read (Memory.cons a v rest) b = Memory.read rest b := by
    intro rest
    unfold Memory.cons
    split <;> simp [Memory.read, h]
  induction m with
  | nil => exact hc []
  | cons c rest ih =>
    obtain ⟨d, w⟩ := c
    simp only [Memory.write]
    split
    · exact hc _
    · split
      · next had => subst had; rw [hc]; simp [Memory.read, h]
      · simp only [Memory.read, ih]

/-- The cells of a written memory: the cell written, or an old one. -/
theorem Memory.mem_write {m : Memory} {a : Nat} {v : Byte} {c : Host.Cell} (h : c ∈ Memory.write m a v) :
    c = (a, v) ∨ c ∈ m := by
  have hc : ∀ rest : Memory, c ∈ Memory.cons a v rest → c = (a, v) ∨ c ∈ rest := by
    intro rest hr
    unfold Memory.cons at hr
    split at hr
    · exact .inr hr
    · simpa using hr
  induction m with
  | nil => exact hc [] h
  | cons d rest ih =>
    obtain ⟨b, w⟩ := d
    simp only [Memory.write] at h
    split at h
    · exact hc _ h
    · split at h
      · exact (hc _ h).imp_right fun h => by simp [h]
      · rcases List.mem_cons.1 h with rfl | h
        · simp
        · exact (ih h).imp_right fun h => by simp [h]

/-- `Memory.cons` keeps the canonical form when its address is below the rest. -/
theorem Memory.cons_wf {rest : Memory} {a : Nat} (v : Byte) (ha : a < 256) (h : ∀ c ∈ rest, a < c.1)
    (hr : Memory.wf rest = true) : Memory.wf (Memory.cons a v rest) = true := by
  unfold Memory.cons
  split
  · exact hr
  · next hv => exact Memory.wf_cons.2 ⟨ha, hv, h, hr⟩

/-- A write keeps the canonical form. -/
theorem Memory.write_wf {m : Memory} (hm : Memory.wf m = true) {a : Nat} (ha : a < 256) (v : Byte) :
    Memory.wf (Memory.write m a v) = true := by
  induction m with
  | nil => exact Memory.cons_wf v ha (by simp) rfl
  | cons c rest ih =>
    obtain ⟨d, w⟩ := c
    obtain ⟨hd, hw, hlt, hrest⟩ := Memory.wf_cons.1 hm
    simp only [Memory.write]
    split
    · next had =>
      refine Memory.cons_wf v ha (fun c hc => ?_) hm
      rcases List.mem_cons.1 hc with rfl | hc
      · exact had
      · exact Nat.lt_trans had (hlt c hc)
    · split
      · next had => subst had; exact Memory.cons_wf v ha hlt hrest
      · next hnlt hne =>
        refine Memory.wf_cons.2 ⟨hd, hw, fun c hc => ?_, ih hrest⟩
        rcases Memory.mem_write hc with rfl | hc
        · show d < a; omega
        · exact hlt c hc

/-- A store to a cell keeps canonical memory. -/
theorem memWrite_wf {s : State} (h : Memory.wf s.mem = true) (a v : Byte) : Memory.wf (s.memWrite a v).mem = true :=
  Memory.write_wf h a.isLt v

/-- `MemRead` after `MemWrite`, in canonical memory (R41, R42). -/
theorem memRead_memWrite {s : State} (h : Memory.wf s.mem = true) (a v b : Byte) :
    (s.memWrite a v).memRead b = if b = a then v else s.memRead b := by
  simp only [State.memRead, memWrite_mem, Memory.read_write h, BitVec.toNat_inj]

/-- `MemWrite` leaves every other cell alone, in any memory (R42). -/
theorem memRead_memWrite_of_ne (s : State) {a b : Byte} (v : Byte) (h : b ≠ a) :
    (s.memWrite a v).memRead b = s.memRead b :=
  Memory.read_write_of_ne s.mem v fun e => h (BitVec.eq_of_toNat_eq e)

/-- Storing bytes changes memory alone. -/
theorem memWriteBytes_mem_only (bytes : List Byte) (s : State) (a : Byte) :
    s.memWriteBytes a bytes = { s with mem := (s.memWriteBytes a bytes).mem } := by
  induction bytes generalizing s a with
  | nil => rfl
  | cons v rest ih => rw [State.memWriteBytes, ih]; rfl

/-- Storing bytes keeps canonical memory. -/
theorem memWriteBytes_wf (bytes : List Byte) {s : State} (h : Memory.wf s.mem = true) (a : Byte) :
    Memory.wf (s.memWriteBytes a bytes).mem = true := by
  induction bytes generalizing s a with
  | nil => exact h
  | cons v rest ih => exact ih (memWrite_wf h a v) _

end Sys2Proof.Machine
end

