-- ==== Sys2Proof/Laws/Ops.lean ====
section
/-!
SUPPORT. What each shared operation can do, said once in the terms of the claims: an address, a register operand and a
register read each answer one value, or raise one fault.
-/

namespace Sys2Proof.Machine

/-! Addresses (R43). -/

/-- An address that is not rejected is the byte it is modulo 256. -/
theorem addr_accepted {p : Params} {n : Int} (h : ¬ AddressRejected p n) : addr p n = .ok (u8 n) := by
  unfold addr
  split
  · rfl
  · next hn =>
    cases hp : p.addrOverflow with
    | wrap => rfl
    | fault => exact absurd ⟨hp, by omega⟩ h

/-- A rejected address raises `AddressOverflow` with the address as info. -/
theorem addr_rejected {p : Params} {n : Int} (h : AddressRejected p n) :
    addr p n = .error { cause := .addressOverflow, info := some n } := by
  obtain ⟨hp, hn⟩ := h
  have : ¬ (0 ≤ n ∧ n ≤ 255) := by omega
  simp [addr, this, hp, raise]

/-- A byte past an address, modulo 256, is byte addition. -/
@[simp] theorem u8_add (x : Byte) (k : Nat) : u8 (x.toNat + k) = x + BitVec.ofNat 8 k := by
  unfold u8
  rw [BitVec.ofInt_add, BitVec.ofInt_natCast, BitVec.ofInt_natCast, BitVec.ofNat_toNat, BitVec.setWidth_eq]

/-- The byte below an address, modulo 256, is byte subtraction. -/
@[simp] theorem u8_sub_one (x : Byte) : u8 (x.toNat - 1) = x - 1#8 := by
  unfold u8
  rw [show (x.toNat : Int) - 1 = x.toNat + (-1) by omega, BitVec.ofInt_add, BitVec.ofInt_natCast,
    BitVec.ofNat_toNat, BitVec.setWidth_eq]
  rw [BitVec.sub_eq_add_neg]
  rfl

/-! Register operands (R68) and reads (R22). -/

/-- Bits [2:0] of an operand byte are its residue modulo 8. -/
theorem low3_eq_operandIndex (o : Byte) : low3 o = operandIndex o := by
  apply Fin.ext
  simp [low3, operandIndex]

/-- An operand byte that is not rejected names its register. -/
theorem regIndex_accepted {p : Params} {o : Byte} (h : ¬ OperandRejected p o) :
    regIndex p o = .ok (operandIndex o) := by
  unfold regIndex
  rw [low3_eq_operandIndex]
  split
  · rfl
  · next ho =>
    cases hp : p.regIndexPolicy with
    | low3 => rfl
    | fault => exact absurd ⟨hp, by omega⟩ h

/-- A rejected operand byte raises `BadRegister` with the byte as info. -/
theorem regIndex_rejected {p : Params} {o : Byte} (h : OperandRejected p o) :
    regIndex p o = .error { cause := .badRegister, info := some o.toNat } := by
  obtain ⟨hp, ho⟩ := h
  simp [regIndex, Nat.not_le.2 ho, hp, raise]

/-- The model's test for a register without a value is the claims' one. -/
theorem isUnwritten_iff (s : State) (i : RegIndex) : s.isUnwritten i = true ↔ s.NoValue i := by
  simp [State.isUnwritten, State.NoValue, spReg, and_assoc]

/-- A register that holds a value reads as it. -/
theorem regRead_value {s : State} {i : RegIndex} (h : ¬ s.NoValue i) : s.regRead i = .ok s.regs[i] := by
  simp [State.regRead, isUnwritten_iff, h]

/-- A register that holds no value raises `UnwrittenRegister` with its index as info. -/
theorem regRead_noValue {s : State} {i : RegIndex} (h : s.NoValue i) :
    s.regRead i = .error { cause := .unwrittenRegister, info := some i.val } := by
  simp [State.regRead, isUnwritten_iff, h, raise]

/-- A register holds a value after a write exactly when it held one or is the register written (R22). -/
theorem noValue_regWrite (s : State) (i r : RegIndex) (v : Byte) :
    (s.regWrite i v).NoValue r ↔ s.NoValue r ∧ r ≠ i := by
  simp only [State.NoValue, regWrite_params, regWrite_written]
  by_cases h : r = i
  · subst h; simp
  · have : (i : Nat) ≠ r := fun e => h (Fin.ext e.symm)
    simp [h, this]

/-! The stack pointer and the pc (R84, R140, R141). -/

/-- `SP` goes down by 1, or the address below it is rejected. -/
theorem decSp_accepted {s : State} (h : ¬ AddressRejected s.params (s.regs[7].toNat - 1)) :
    s.decSp = .ok (s.regWrite 7 (s.regs[7] - 1#8)) := by
  simp only [State.decSp, State.sp, spReg]
  rw [show s.regs[(7 : RegIndex)] = s.regs[7] from rfl, addr_accepted h]
  simp [bind, Except.bind]

theorem decSp_rejected {s : State} (h : AddressRejected s.params (s.regs[7].toNat - 1)) :
    s.decSp = .error { cause := .addressOverflow, info := some ((s.regs[7].toNat : Int) - 1) } := by
  simp only [State.decSp, State.sp, spReg]
  rw [show s.regs[(7 : RegIndex)] = s.regs[7] from rfl, addr_rejected h]
  rfl

/-- `SP` goes up by 1, or the address above it is rejected. -/
theorem incSp_accepted {s : State} (h : ¬ AddressRejected s.params (s.regs[7].toNat + 1)) :
    s.incSp = .ok (s.regWrite 7 (s.regs[7] + 1#8)) := by
  simp only [State.incSp, State.sp, spReg]
  rw [show s.regs[(7 : RegIndex)] = s.regs[7] from rfl, addr_accepted h]
  have := u8_add s.regs[7] 1
  simp only [Nat.cast_one] at this
  simp [bind, Except.bind, this]

theorem incSp_rejected {s : State} (h : AddressRejected s.params (s.regs[7].toNat + 1)) :
    s.incSp = .error { cause := .addressOverflow, info := some ((s.regs[7].toNat : Int) + 1) } := by
  simp only [State.incSp, State.sp, spReg]
  rw [show s.regs[(7 : RegIndex)] = s.regs[7] from rfl, addr_rejected h]
  rfl

/-- An address past the pc is the byte sum, or is rejected. -/
theorem pcPlus_accepted {s : State} {k : Nat} (h : ¬ AddressRejected s.params (s.pc.toNat + k)) :
    s.pcPlus k = .ok (s.pc + BitVec.ofNat 8 k) := by
  rw [State.pcPlus, addr_accepted h, u8_add]

theorem pcPlus_rejected {s : State} {k : Nat} (h : AddressRejected s.params (s.pc.toNat + k)) :
    s.pcPlus k = .error { cause := .addressOverflow, info := some ((s.pc.toNat : Int) + k) } := by
  rw [State.pcPlus, addr_rejected h]

/-- The pc advances past the instruction, or the address there is rejected. -/
theorem advance_accepted {s : State} {n : Nat} (h : ¬ AddressRejected s.params (s.pc.toNat + (1 + n : Nat))) :
    s.advance n = .ok { s with pc := s.pc + BitVec.ofNat 8 (1 + n) } := by
  rw [State.advance, pcPlus_accepted h]; rfl

theorem advance_rejected {s : State} {n : Nat} (h : AddressRejected s.params (s.pc.toNat + (1 + n : Nat))) :
    s.advance n = .error { cause := .addressOverflow, info := some ((s.pc.toNat : Int) + (1 + n : Nat)) } := by
  rw [State.advance, pcPlus_rejected h]; rfl

/-- How an instruction ends: with all its effects, or in the faulted core. -/
@[simp] theorem complete_ok (s t : State) : s.complete (.ok t) = .next t := rfl
@[simp] theorem complete_error (s : State) (r : Raise) : s.complete (.error r) = .next (s.faultedWith r.cause r.info) := rfl

end Sys2Proof.Machine
end

