-- ==== Sys2Proof/Laws/Fetch.lean ====
section
/-!
SUPPORT. What the operand fetch can do (R66, R82): it reads the bytes at consecutive addresses, or raises at the first
address that is rejected.
-/

namespace Sys2Proof.Machine

@[simp] theorem fetchBytes_zero (s : State) (k : Nat) : s.fetchBytes k 0 = .ok [] := rfl

/-- The first address is accepted: its byte, and then the rest. -/
theorem fetchBytes_accepted {s : State} {k : Nat} (h : ¬ AddressRejected s.params (s.pc.toNat + k)) (n : Nat) :
    s.fetchBytes k (n + 1) = (s.fetchBytes (k + 1) n).map (s.memRead (s.pc + BitVec.ofNat 8 k) :: ·) := by
  rw [State.fetchBytes, pcPlus_accepted h]
  simp only [bind, Except.bind]
  cases s.fetchBytes (k + 1) n <;> rfl

/-- The first address is rejected: `AddressOverflow` with that address. -/
theorem fetchBytes_rejected {s : State} {k : Nat} (h : AddressRejected s.params (s.pc.toNat + k)) (n : Nat) :
    s.fetchBytes k (n + 1) = .error { cause := .addressOverflow, info := some ((s.pc.toNat : Int) + k) } := by
  rw [State.fetchBytes, pcPlus_rejected h]
  rfl

/-- Whatever the operand fetch raises is `AddressOverflow` with an address. -/
theorem fetchBytes_error {s : State} {k n : Nat} {r : Raise} (h : s.fetchBytes k n = .error r) :
    ∃ a : Int, r = { cause := .addressOverflow, info := some a } := by
  induction n generalizing k with
  | zero => cases h
  | succ n ih =>
    by_cases hr : AddressRejected s.params (s.pc.toNat + k)
    · rw [fetchBytes_rejected hr] at h
      cases h
      exact ⟨_, rfl⟩
    · rw [fetchBytes_accepted hr] at h
      cases hb : s.fetchBytes (k + 1) n with
      | ok l => rw [hb] at h; cases h
      | error e => rw [hb] at h; cases h; exact ih hb

/-- An opcode byte no row has: `IllegalOpcode`, before an operand is read (R65, R83). -/
theorem fetch_illegal {s : State} (h : lookupOp s.params (s.memRead s.pc) = none) :
    s.fetch = .error { cause := .illegalOpcode, info := some (s.memRead s.pc).toNat } := by
  simp only [State.fetch, h]
  rfl

end Sys2Proof.Machine
end

