-- ==== Sys2Proof/Laws/HostPort.lean ====
section
/-!
SUPPORT. What the host's operations can do (R80, R90): an accepted load is inside its contract and answers one state, and how
a run unfolds.
-/

namespace Sys2Proof.Machine

/-- An accepted load: its contract held, and this is what it answers (R90). -/
theorem load_next {bytes : List Byte} {s t : State} (h : load bytes s = .next t) :
    s.runState = .ready ∧ s.loaded = false ∧ bytes.length ≤ 256 ∧
      t = { s.memWriteBytes 0x00#8 bytes with loaded := true } := by
  unfold load at h
  split at h
  · cases h
  · next hr =>
    split at h
    · cases h
    · next hl =>
      split at h
      · cases h
      · next hb =>
        cases h
        exact ⟨of_not_not hr, eq_false_of_ne_true hl, Nat.le_of_not_lt hb, rfl⟩

/-- Inside its contract the load is accepted (R90). -/
theorem load_accepted {bytes : List Byte} {s : State} (hr : s.runState = .ready) (hl : s.loaded = false)
    (hb : bytes.length ≤ 256) : load bytes s = .next { s.memWriteBytes 0x00#8 bytes with loaded := true } := by
  simp [load, hr, hl, Nat.not_lt.mpr hb]

/-- A second load since reset is refused (R90). -/
theorem load_refused_of_loaded {s : State} (h : s.loaded = true) (bytes : List Byte) :
    ∃ r, load bytes s = .refused r := by
  by_cases hr : s.runState = .ready
  · exact ⟨.loadTwice, by simp [load, hr, h]⟩
  · exact ⟨.loadOutsideReady, if_pos hr⟩

/-- Halted and Faulted are the terminal run states (R81). -/
theorem terminal_iff (s : State) : s.terminal = true ↔ s.runState = .halted ∨ s.runState = .faulted := by
  simp [State.terminal]

/-- A run from a terminal state takes no step. -/
theorem runFor_terminal {s : State} (h : s.terminal = true) (k : Nat) : runFor k s = s := by
  cases k
  · rfl
  · exact if_pos h

/-- A run takes the step it can take first, and goes on from there. -/
theorem runFor_succ {s t : State} (hn : s.terminal = false) (hs : step s = .next t) (k : Nat) :
    runFor (k + 1) s = runFor k t := by
  simp only [runFor, hn, hs]
  rfl

end Sys2Proof.Machine
end

