-- ==== Sys2Proof/Laws/PerInstr.lean ====
section
/-!
SUPPORT. Statements for every instruction, proved constructor by constructor.
-/

namespace Sys2Proof.Laws.EncodingShape

/-- The shape of an encoding (R60, R61, R69): the row's opcode byte first, then as many operand bytes as the row has, the
register operands among them in order; and under a legal map the first byte names the length in bits [7:6] (R62). -/
def Statement (i : Instr) : Prop :=
  ∀ m : OpcodeMap, (encode m i).head? = some (m.byteOf i.op) ∧ (encode m i).length = i.length ∧
    i.regOperands <+: (encode m i).tail ∧
    (m.WellFormed → (encode m i).length = 1 + opcodeOC (m.byteOf i.op))

/-- The opcode byte of a legal map names the operand count of its row. -/
theorem opcodeOC_byteOf {m : OpcodeMap} (h : m.WellFormed) (k : Op) : opcodeOC (m.byteOf k) = k.operandCount :=
  h.1 k (by cases k <;> decide)

theorem hlt : Statement .hlt := fun _ => ⟨rfl, rfl, by simp [Instr.regOperands], fun h => by rw [opcodeOC_byteOf h]; rfl⟩
theorem ldi (a b : Byte) : Statement (.ldi a b) := fun _ =>
  ⟨rfl, rfl, ⟨[b], rfl⟩, fun h => by rw [opcodeOC_byteOf h]; rfl⟩
theorem prn (a : Byte) : Statement (.prn a) := fun _ => ⟨rfl, rfl, ⟨[], rfl⟩, fun h => by rw [opcodeOC_byteOf h]; rfl⟩
theorem mul (a b : Byte) : Statement (.mul a b) := fun _ =>
  ⟨rfl, rfl, ⟨[], rfl⟩, fun h => by rw [opcodeOC_byteOf h]; rfl⟩
theorem push (a : Byte) : Statement (.push a) := fun _ => ⟨rfl, rfl, ⟨[], rfl⟩, fun h => by rw [opcodeOC_byteOf h]; rfl⟩
theorem pop (a : Byte) : Statement (.pop a) := fun _ => ⟨rfl, rfl, ⟨[], rfl⟩, fun h => by rw [opcodeOC_byteOf h]; rfl⟩
theorem call (a : Byte) : Statement (.call a) := fun _ => ⟨rfl, rfl, ⟨[], rfl⟩, fun h => by rw [opcodeOC_byteOf h]; rfl⟩
theorem ret : Statement .ret := fun _ => ⟨rfl, rfl, by simp [Instr.regOperands], fun h => by rw [opcodeOC_byteOf h]; rfl⟩
theorem cmp (a b : Byte) : Statement (.cmp a b) := fun _ =>
  ⟨rfl, rfl, ⟨[], rfl⟩, fun h => by rw [opcodeOC_byteOf h]; rfl⟩
theorem jmp (a : Byte) : Statement (.jmp a) := fun _ => ⟨rfl, rfl, ⟨[], rfl⟩, fun h => by rw [opcodeOC_byteOf h]; rfl⟩
theorem jeq (a : Byte) : Statement (.jeq a) := fun _ => ⟨rfl, rfl, ⟨[], rfl⟩, fun h => by rw [opcodeOC_byteOf h]; rfl⟩
theorem jne (a : Byte) : Statement (.jne a) := fun _ => ⟨rfl, rfl, ⟨[], rfl⟩, fun h => by rw [opcodeOC_byteOf h]; rfl⟩
theorem add (a b : Byte) : Statement (.add a b) := fun _ =>
  ⟨rfl, rfl, ⟨[], rfl⟩, fun h => by rw [opcodeOC_byteOf h]; rfl⟩

end Sys2Proof.Laws.EncodingShape
end

