-- ==== Sys2Proof/Tests/Slice0.lean ====
section
/-!
SUPPORT. Small tests, each about one decode or one step. Expected results are the vectors of spec/95_test_vectors.md
(named in each comment) and the encodings of R64 written out bit by bit. At the end, for each statement with hypotheses, a
state and operands that meet them all.
-/

namespace Sys2Proof.Tests

open Sys2Proof Sys2Proof.Machine

/-! ### Well-formedness: a well-formed term, and an ill-formed one for each check -/

theorem test_wf_instruction : (Instr.mul 0x07#8 0x00#8).wellFormed defaultParams = true := by decide
/-- A first register operand above 7 (R68). -/
theorem test_ill_first_operand : (Instr.prn 0x08#8).wellFormed defaultParams = false := by decide
/-- A second register operand above 7 (R68); the immediate of LDI is no register operand (R67). -/
theorem test_ill_second_operand : (Instr.cmp 0x00#8 0x08#8).wellFormed defaultParams = false := by decide
theorem test_wf_immediate : (Instr.ldi 0x00#8 0xFF#8).wellFormed defaultParams = true := by decide
/-- Under `low3` every operand byte names a register (R68). -/
theorem test_wf_low3 : (Instr.prn 0x08#8).wellFormed { defaultParams with regIndexPolicy := .low3 } = true := by decide
/-- ADD without `ADD_INSN` (R123). -/
theorem test_ill_add : (Instr.add 0x00#8 0x01#8).wellFormed defaultParams = false := by decide
theorem test_wf_default_params : defaultParams.WellFormed := by decide
/-- A map that gives two rows one byte (R64). -/
theorem test_ill_map_repeats : ¬ { defaultOpcodeMap with jmp := 0x55#8 }.WellFormed := by decide
/-- A map whose byte does not name the row's operand count (R62). -/
theorem test_ill_map_count : ¬ { defaultOpcodeMap with hlt := 0x41#8 }.WellFormed := by decide
/-- A layout that puts two flags on one bit (R26). -/
theorem test_ill_layout : ¬ FlLayout.WellFormed { e := 0, g := 1, l := 1 } := by decide

/-! ### Decoding: every constructor from a word written out from R64 -/

theorem test_decode_hlt : decode defaultParams [0b00000001#8] = .ok (.hlt, []) := by decide
theorem test_decode_ldi : decode defaultParams [0b10000010#8, 0b00000001#8, 0b00001001#8] =
    .ok (.ldi 0x01#8 0x09#8, []) := by decide
theorem test_decode_prn : decode defaultParams [0b01000111#8, 0b00000011#8] = .ok (.prn 0x03#8, []) := by decide
theorem test_decode_mul : decode defaultParams [0b10100010#8, 0b00000000#8, 0b00000001#8] =
    .ok (.mul 0x00#8 0x01#8, []) := by decide
theorem test_decode_push : decode defaultParams [0b01000101#8, 0b00000111#8] = .ok (.push 0x07#8, []) := by decide
theorem test_decode_pop : decode defaultParams [0b01000110#8, 0b00000010#8] = .ok (.pop 0x02#8, []) := by decide
theorem test_decode_call : decode defaultParams [0b01010000#8, 0b00000001#8] = .ok (.call 0x01#8, []) := by decide
theorem test_decode_ret : decode defaultParams [0b00010001#8, 0b00000001#8] = .ok (.ret, [0x01#8]) := by decide
theorem test_decode_cmp : decode defaultParams [0b10100111#8, 0b00000111#8, 0b00000000#8] =
    .ok (.cmp 0x07#8 0x00#8, []) := by decide
theorem test_decode_jmp : decode defaultParams [0b01010100#8, 0b00000010#8] = .ok (.jmp 0x02#8, []) := by decide
theorem test_decode_jeq : decode defaultParams [0b01010101#8, 0b00000010#8] = .ok (.jeq 0x02#8, []) := by decide
theorem test_decode_jne : decode defaultParams [0b01010110#8, 0b00000001#8] = .ok (.jne 0x01#8, []) := by decide
theorem test_decode_add : decode tableParams [0b10100000#8, 0b00000010#8, 0b00000011#8] =
    .ok (.add 0x02#8 0x03#8, []) := by decide
/-- R65, V-DEC-1, V-DEC-2, V-DEC-3. -/
theorem test_decode_illegal : decode defaultParams [0x00#8] = .error (.illegalOpcode 0x00#8) ∧
    decode defaultParams [0xC0#8] = .error (.illegalOpcode 0xC0#8) ∧
    decode defaultParams [0xA0#8, 0x00#8, 0x00#8] = .error (.illegalOpcode 0xA0#8) := by decide
theorem test_decode_short : decode defaultParams [0x82#8, 0x00#8] = .error (.missingOperand 0x82#8) ∧
    decode defaultParams [] = .error .noByte := by decide
/-- R75: the first instruction of scenario 1 as a word, first byte in bits 7..0. -/
theorem test_table_word : decodeTableWord 24 0x080082 = some (.ldi 0x00#8 0x08#8) ∧
    decodeTableWord 8 0x080082 = some (.ldi 0x00#8 0x00#8) := by decide

/-! ### One step each, from the vectors -/

/-- A reset core under `p` with given registers, `pc`, `FL` and bytes at the `pc`. -/
def core (p : Params) (regs : Vector Byte 8) (pc fl : Byte) (bytes : List Byte) : State :=
  State.memWriteBytes { State.resetWith p with regs := regs, pc := pc, fl := fl } pc bytes

/-- The model's reset parameters, and the same with one other value. -/
def dflt : Params := resetParams
def strict : Params := { resetParams with addrOverflow := .fault }
def noValue : Params := { resetParams with gprReset := .unwritten }
def withAdd : Params := { resetParams with addInsn := true }

/-- Registers R0 to R3 and `SP`, the others 0. -/
def regs (r0 r1 r2 r3 sp : Byte) : Vector Byte 8 := #v[r0, r1, r2, r3, 0#8, 0#8, 0#8, sp]

/-- A step answers a next state of which `f` holds. -/
def nextIs (o : Host.Outcome State Fault Refusal) (f : State → Bool) : Bool :=
  match o with
  | .next t => f t
  | .fault _ => false
  | .refused _ => false

/-- The fault record a step leaves. -/
def recordIs (o : Host.Outcome State Fault Refusal) (c : FaultCause) (pc op : Byte) (info : Int) : Bool :=
  nextIs o fun t => decide (t.runState = .faulted ∧
    t.faultRecord = some { cause := c, faultPc := pc, opcode := op, info := some info } ∧ t.pc = pc)

/-- V-SYS-1. -/
theorem test_hlt : nextIs (step (core dflt (regs 0 0 0 0 0xF4) 11 0 [0x01])) (fun t =>
    decide (t.runState = .halted ∧ t.pc = 11#8)) = true := by decide
/-- V-SYS-3: the value is unsigned. -/
theorem test_prn : nextIs (step (core dflt (regs 0 0 0 0x90 0xF4) 0 0 [0x47, 0x03])) (fun t =>
    decide (t.output = [{ index := 3, value := 144#8 }] ∧ t.pc = 2#8)) = true := by decide
/-- V-SYS-5. -/
theorem test_prn_unwritten : recordIs (step (core noValue (regs 0 0 0 0 0xF4) 0 0 [0x47, 0x02]))
    .unwrittenRegister 0 0x47 2 = true := by decide
/-- V-DEC-7: an instruction across the top of memory. -/
theorem test_ldi_wraps : nextIs (step (core dflt (regs 1 0 0 0 0xF4) 254 0 [0x82, 0x00, 0x2A])) (fun t =>
    decide (t.regs[0] = 0x2A#8 ∧ t.pc = 1#8)) = true := by decide
/-- V-LDI-3 and V-LDI-4. -/
theorem test_ldi_sp : nextIs (step (core dflt (regs 0 0 0 0 0xF4) 0 4 [0x82, 0x07, 0x10])) (fun t =>
    decide (t.regs[7] = 0x10#8 ∧ t.fl = 4#8 ∧ t.pc = 3#8)) = true := by decide
/-- V-ALU-2 and V-ALU-7. -/
theorem test_mul_wraps : nextIs (step (core dflt (regs 200 2 0 0 0xF4) 0 1 [0xA2, 0x00, 0x01])) (fun t =>
    decide (t.regs[0] = 144#8 ∧ t.regs[1] = 2#8 ∧ t.fl = 1#8)) = true := by decide
/-- V-ALU-6. -/
theorem test_mul_unwritten : recordIs (step { core noValue (regs 3 0 0 0 0xF4) 0 0 [0xA2, 0x00, 0x01] with
    written := #v[true, false, false, false, false, false, false, true] }) .unwrittenRegister 0 0xA2 1 = true := by decide
/-- V-ALU-17. -/
theorem test_add_wraps : nextIs (step (core withAdd (regs 200 100 0 0 0xF4) 0 2 [0xA0, 0x00, 0x01])) (fun t =>
    decide (t.regs[0] = 44#8 ∧ t.fl = 2#8)) = true := by decide
/-- V-DEC-3: without `ADD_INSN` the byte is illegal. -/
theorem test_add_absent : recordIs (step (core dflt (regs 200 100 0 0 0xF4) 0 0 [0xA0, 0x00, 0x01]))
    .illegalOpcode 0 0xA0 0xA0 = true := by decide
/-- V-ALU-13: signed, 127 > -128. -/
theorem test_cmp_signed : nextIs (step (core dflt (regs 0x7F 0x80 0 0 0xF4) 0 1 [0xA7, 0x00, 0x01])) (fun t =>
    decide (t.fl = 4#8 ∧ t.pc = 3#8)) = true := by decide
/-- V-ALU-11, its unsigned column. -/
theorem test_cmp_unsigned : nextIs (step (core { dflt with cmpSigned := false } (regs 0x80 0x01 0 0 0xF4) 0 0
    [0xA7, 0x00, 0x01])) (fun t => decide (t.fl = 4#8)) = true := by decide
/-- V-STK-4. -/
theorem test_push_sp : nextIs (step (core dflt (regs 0 0 0 0 0xF4) 0 0 [0x45, 0x07])) (fun t =>
    decide (t.regs[7] = 0xF3#8 ∧ t.memRead 0xF3 = 0xF3#8 ∧ t.pc = 2#8)) = true := by decide
/-- V-STK-3. -/
theorem test_push_overflow : recordIs (step (core strict (regs 0 0xAB 0 0 0x00) 0 0 [0x45, 0x01]))
    .addressOverflow 0 0x45 (-1) = true := by decide
/-- V-STK-10. -/
theorem test_pop_sp : nextIs (step ((core dflt (regs 0 0 0 0 0x40) 0 0 [0x46, 0x07]).memWrite 0x40 0x20)) (fun t =>
    decide (t.regs[7] = 0x21#8 ∧ t.memRead 0x40 = 0x20#8)) = true := by decide
/-- V-STK-9. -/
theorem test_pop_wraps : nextIs (step ((core dflt (regs 0 0 0 0 0xFF) 0 0 [0x46, 0x01]).memWrite 0xFF 0x11)) (fun t =>
    decide (t.regs[1] = 0x11#8 ∧ t.regs[7] = 0x00#8)) = true := by decide
/-- V-SUB-2. -/
theorem test_call_wraps : nextIs (step ((core dflt (regs 0x30 0 0 0 0xF4) 254 0 [0x50, 0x00]).memWrite 0xF3 0xAA)) (fun t =>
    decide (t.memRead 0xF3 = 0x00#8 ∧ t.pc = 0x30#8 ∧ t.regs[7] = 0xF3#8)) = true := by decide
/-- V-SUB-3. -/
theorem test_call_sp : nextIs (step (core dflt (regs 0 0 0 0 0xF4) 0x10 0 [0x50, 0x07])) (fun t =>
    decide (t.memRead 0xF3 = 0x12#8 ∧ t.pc = 0xF3#8)) = true := by decide
/-- V-SUB-5. -/
theorem test_ret : nextIs (step ((core dflt (regs 0 0 0 0 0xF3) 0 2 [0x11]).memWrite 0xF3 8)) (fun t =>
    decide (t.pc = 8#8 ∧ t.regs[7] = 0xF4#8 ∧ t.fl = 2#8)) = true := by decide
/-- V-BR-1. -/
theorem test_jmp : nextIs (step (core dflt (regs 0 0 0x20 0 0xF4) 0 1 [0x54, 0x02])) (fun t =>
    decide (t.pc = 0x20#8 ∧ t.fl = 1#8)) = true := by decide
/-- V-BR-3. -/
theorem test_jeq_taken : nextIs (step (core dflt (regs 0 0 16 0 0xF4) 12 1 [0x55, 0x02])) (fun t =>
    decide (t.pc = 16#8 ∧ t.fl = 0#8)) = true := by decide
/-- V-BR-5 and V-BR-6: not taken, no register read. -/
theorem test_jeq_not_taken : nextIs (step (core noValue (regs 0 0 0 0 0xF4) 12 2 [0x55, 0x02])) (fun t =>
    decide (t.runState = .running ∧ t.pc = 14#8 ∧ t.fl = 2#8)) = true := by decide
/-- V-BR-10. -/
theorem test_jne_taken : nextIs (step (core dflt (regs 0 6 0 0 0xF4) 11 4 [0x56, 0x01])) (fun t =>
    decide (t.pc = 6#8 ∧ t.fl = 0#8)) = true := by decide
/-- V-BR-11. -/
theorem test_jne_not_taken : nextIs (step (core dflt (regs 0 6 0 0 0xF4) 11 1 [0x56, 0x01])) (fun t =>
    decide (t.pc = 13#8 ∧ t.fl = 1#8)) = true := by decide
/-- V-DEC-8: the operand fetch is checked before the register index. -/
theorem test_fetch_overflow : recordIs (step (core strict (regs 0 0 0 0 0xF4) 254 0 [0x82, 0x08]))
    .addressOverflow 254 0x82 256 = true := by decide
/-- V-BR-8: a bad register although the jump is not taken. -/
theorem test_bad_register : recordIs (step (core dflt (regs 0 0 0 0 0xF4) 12 0 [0x55, 0x09]))
    .badRegister 12 0x55 9 = true := by decide
/-- V-DEC-10. -/
theorem test_low3 : nextIs (step (core { dflt with regIndexPolicy := .low3 } (regs 0 0 0 0 0xF4) 0 0 [0x82, 0x08, 0x01]))
    (fun t => decide (t.regs[0] = 1#8 ∧ t.pc = 3#8)) = true := by decide
/-- V-DEC-4: a step with no program. -/
theorem test_no_program : recordIs (step State.reset) .illegalOpcode 0 0x00 0 = true := by decide
/-- R90: one load since reset; a second is refused. -/
theorem test_load_once : nextIs (load [0x01#8] State.reset) (fun t => t.loaded &&
    (match load [0x01#8] t with
    | .next _ => false
    | .fault _ => false
    | .refused r => decide (r = .loadTwice))) = true := by decide
/-- V-ALU-1 through the host's placing of a word: it runs as the first instruction after reset. -/
theorem test_with_fetch_word : nextIs (step (State.reset.withFetchWord 24 0x080082)) (fun t =>
    decide (t.regs[0] = 8#8 ∧ t.pc = 3#8)) = true := by decide
/-- The same for the row ADD, which the placing admits. -/
theorem test_with_fetch_word_add : nextIs (step (State.reset.withFetchWord 24 0x0707A0)) (fun t =>
    decide (t.regs[7] = 0xE8#8)) = true := by decide

/-! ### Witnesses: each statement's hypotheses are met -/

/-- A state in which every instruction executes: the operands below are at the ends of their ranges. -/
def base : State := core dflt (regs 8 9 5 5 0xF4) 0x20 1 [0x82, 0x07, 0xFF]
/-- The same under `ADDR_OVERFLOW = fault`, at the last addresses that are accepted. -/
def tight : State := core strict (regs 8 9 5 5 1) 252 0 [0x82, 0x07, 0xFF]
/-- A core in which R0 to R6 hold no value. -/
def blank : State := core noValue (regs 0 0 0 0 0xF4) 0 0 [0x47, 0x02]

theorem witness_params : defaultParams.WellFormed ∧ dflt.WellFormed := by decide
theorem witness_step_invariant : base.Inv ∧ nextIs (step base) (fun _ => true) = true := by decide
theorem witness_load : State.reset.Inv ∧ nextIs (load [0x82, 0x00, 0x08] State.reset) (fun _ => true) = true := by decide
theorem witness_load_longest : State.reset.runState = .ready ∧ State.reset.loaded = false ∧
    (List.replicate 256 0x01#8).length ≤ 256 := ⟨rfl, rfl, by rw [List.length_replicate]⟩
theorem witness_load_too_long : ¬ (List.replicate 257 0x01#8).length ≤ 256 := by
  rw [List.length_replicate]; decide
theorem witness_can_step : State.reset.CanStep ∧ ({ State.reset with runState := .running }).CanStep := by decide
theorem witness_halted : ({ base with runState := .halted }).runState = .halted := rfl
theorem witness_faulted : ({ base with runState := .faulted }).runState = .faulted := rfl
theorem witness_step_decodes : base.CanStep ∧
    decode base.params [base.memRead base.pc, base.memRead (base.pc + 1#8), base.memRead (base.pc + 2#8)] =
      .ok (.ldi 0x07#8 0xFF#8, []) := by decide
theorem witness_step_decodes_addresses (k : Nat) : ¬ AddressRejected base.params (base.pc.toNat + k) := by
  rintro ⟨h, _⟩
  exact absurd h (by decide)
theorem witness_executes_or_not : base.Executes (.prn 0x07#8) ∧ ¬ base.Executes (.prn 0x08#8) ∧
    base.runState ≠ .faulted := by decide
theorem witness_step_faults : nextIs (step State.reset) (fun t => decide (t.runState = .faulted)) = true := by decide
theorem witness_halt_step : (core dflt (regs 0 0 0 0 0) 0 0 [0x01]).CanStep ∧
    (core dflt (regs 0 0 0 0 0) 0 0 [0x01]).params.WellFormed ∧
    (core dflt (regs 0 0 0 0 0) 0 0 [0x01]).memRead 0 = dflt.opcodes.hlt := by decide
/-- A run that has ended in Faulted, one that has ended in Halted, and one that goes on. -/
theorem witness_ended_run : (runFor 1 State.reset).runState = .faulted ∧
    (runFor 1 (core dflt (regs 0 0 0 0 0) 0 0 [0x01])).runState = .halted := by decide
theorem witness_run_goes_on : let s := runFor 1 (core dflt (regs 0 0 0 0 0xF4) 0 0 [0x82, 0x00, 0x08, 0x01])
    s.runState ≠ .halted ∧ s.runState ≠ .faulted ∧ s.pc = 3#8 := by decide
theorem witness_encode : defaultOpcodeMap.WellFormed ∧ (Instr.mul 0x00#8 0xFF#8).op.admitted defaultParams = true := by decide
theorem witness_decode : decode defaultParams [0x45#8, 0xFF#8, 0x00#8] = .ok (.push 0xFF#8, [0x00#8]) := by decide
theorem witness_selects : selects defaultParams 0x50#8 .call = true := by decide
theorem witness_top_bits : defaultParams.opcodes.WellFormed ∧ lookupOp defaultParams 0x50#8 = some .call ∧ ((0xC0#8 : Byte) >>> 6).toNat = 3 ∧
    ((0xFF#8 : Byte) >>> 6).toNat = 3 := by decide
theorem witness_illegal_opcode : State.reset.CanStep ∧
    ∀ k ∈ Op.all, k.admitted State.reset.params = true →
      State.reset.params.opcodes.byteOf k ≠ State.reset.memRead State.reset.pc := by decide
theorem witness_bad_register : (Instr.mul 0x07#8 0x08#8).regOperands.find?
    (fun o => decide (OperandRejected base.params o)) = some 0x08#8 := by decide
theorem witness_unwritten : OperandsAccepted blank.params (.cmp 0x07#8 0x06#8) ∧
    (blank.neededRegs (.cmp 0x07#8 0x06#8)).find? (fun r => decide (blank.NoValue r)) = some 6 := by decide
theorem witness_unwritten_taken : ({ blank with fl := 1#8 }.neededRegs (.jeq 0x02#8)).find?
    (fun r => decide (blank.NoValue r)) = some 2 := by decide
theorem witness_computed_overflow : OperandsAccepted tight.params (.mul 0x00#8 0x01#8) ∧
    ({ tight with pc := 253#8 }).HasValues (.mul 0x00#8 0x01#8) ∧
    (({ tight with pc := 253#8 }).computedAddresses (.mul 0x00#8 0x01#8)).find?
      (fun n => decide (AddressRejected tight.params n)) = some 256 := by decide
theorem witness_stack_overflow : let s := core strict (regs 8 9 5 5 0) 254 0 []
    (s.computedAddresses (.call 0x00#8)).find? (fun n => decide (AddressRejected s.params n)) = some (-1) := by decide
theorem witness_fetch_overflow : let s := core strict (regs 0 0 0 0 0xF4) 254 0 [0x82, 0x08]
    s.CanStep ∧ s.params.WellFormed ∧ Op.ldi.admitted s.params = true ∧ s.memRead s.pc = s.params.opcodes.byteOf .ldi ∧
    ([(s.pc.toNat : Int) + 1, (s.pc.toNat : Int) + 2].take Op.ldi.operandCount).find?
      (fun n => decide (AddressRejected s.params n)) = some 256 := by decide

theorem witness_prn : base.Executes (.prn 0x07#8) ∧ tight.Executes (.prn 0x00#8) := by decide
theorem witness_ldi : base.Executes (.ldi 0x07#8 0xFF#8) ∧ tight.Executes (.ldi 0x00#8 0x00#8) := by decide
theorem witness_ldi_unwritten : blank.Executes (.ldi 0x00#8 0x00#8) := by decide
theorem witness_mul : base.Executes (.mul 0x00#8 0x07#8) ∧ tight.Executes (.mul 0x07#8 0x00#8) := by decide
theorem witness_add : base.Executes (.add 0x00#8 0x07#8) ∧ tight.Executes (.add 0x07#8 0x00#8) := by decide
theorem witness_cmp : base.Executes (.cmp 0x00#8 0x07#8) ∧ tight.Executes (.cmp 0x07#8 0x07#8) := by decide
theorem witness_push : base.Executes (.push 0x00#8) ∧ tight.Executes (.push 0x07#8) := by decide
theorem witness_pop : base.Executes (.pop 0x00#8) ∧ tight.Executes (.pop 0x07#8) := by decide
theorem witness_pop_unwritten : blank.Executes (.pop 0x00#8) := by decide
theorem witness_call : base.Executes (.call 0x00#8) ∧ tight.Executes (.call 0x07#8) := by decide
theorem witness_ret : base.Executes .ret ∧ ({ tight with regs := regs 0 0 0 0 254 }).Executes .ret := by decide
theorem witness_jmp : base.Executes (.jmp 0x00#8) ∧ tight.Executes (.jmp 0x07#8) := by decide
theorem witness_jeq_taken : base.equalBit = true ∧ base.Executes (.jeq 0x07#8) := by decide
theorem witness_jne_taken : tight.equalBit = false ∧ tight.Executes (.jne 0x07#8) := by decide
theorem witness_jeq_not_taken : blank.equalBit = false ∧ blank.Executes (.jeq 0x06#8) := by decide
theorem witness_jne_not_taken : let s : State := { blank with fl := 1#8 }
    s.equalBit = true ∧ s.Executes (.jne 0x06#8) := by decide

/-- Every instruction of `base` answers a next state that is not Faulted, the hypothesis of the frames. -/
theorem witness_frames : ∀ i ∈ [Instr.ldi 0x00#8 0x01#8, .prn 0x01#8, .mul 0x00#8 0x01#8, .push 0x00#8, .pop 0x00#8,
    .call 0x00#8, .ret, .cmp 0x00#8 0x01#8, .jmp 0x00#8, .jeq 0x00#8, .jne 0x00#8, .add 0x00#8 0x01#8, .hlt],
    nextIs (exec i base) (fun t => decide (t.runState ≠ .faulted)) = true := by decide
/-- The frames' other clauses: `E` clear, and a store whose address raises. -/
theorem witness_frames_not_equal : ∀ i ∈ [Instr.jeq 0x00#8, .jne 0x00#8],
    nextIs (exec i tight) (fun t => decide (t.runState ≠ .faulted)) = true := by decide
/-- The frames' clauses on a fault. -/
theorem witness_frames_fault : base.runState ≠ .faulted ∧
    nextIs (exec (.prn 0x08#8) base) (fun t => decide (t.runState = .faulted)) = true := by decide
theorem witness_store_address : (match addr base.params (base.sp.toNat - 1) with
    | .ok a => decide (a = 0xF3#8)
    | .error _ => false) = true := by decide
theorem witness_store_address_raises : (match addr strict (((0#8 : Byte).toNat : Int) - 1) with
    | .ok _ => false
    | .error r => decide (r = { cause := .addressOverflow, info := some (-1) })) = true := by decide
theorem witness_equal_bit : base.params.flLayout.WellFormed ∧
    (0xFF#8 : Byte).getLsbD base.params.flLayout.e.val = base.equalBit := by decide
theorem witness_memory : Memory.wf base.mem = true ∧ Memory.wf State.reset.mem = true := by decide

/-- PUSH R0 and POP R0, then PUSH R7 and POP R7. -/
def pushPop (o : Byte) : State := core strict (regs 8 9 5 5 0xF4) 251 0 [0x45, o, 0x46, o]
theorem witness_round_trip : ∀ o ∈ [(0x00#8 : Byte), 0x07#8], let s := pushPop o
    s.CanStep ∧ s.Inv ∧ ¬ OperandRejected s.params o ∧ ¬ s.NoValue (operandIndex o) ∧
    (s.pc.toNat + 4 ≤ 255 ∧ 1 ≤ s.regs[7].toNat) ∧ s.memRead s.pc = s.params.opcodes.push ∧
    s.memRead (s.pc + 1#8) = o ∧ s.memRead (s.pc + 2#8) = s.params.opcodes.pop ∧ s.memRead (s.pc + 3#8) = o ∧
    s.regs[7] - 1#8 ≠ s.pc + 2#8 ∧ s.regs[7] - 1#8 ≠ s.pc + 3#8 := by decide
theorem witness_call_return : Memory.wf base.mem = true ∧ base.Executes (.call 0x07#8) := by decide
theorem witness_load_print : let s := core strict (regs 0 0 0 0 0xF4) 250 0 [0x82, 0x07, 0xFF, 0x47, 0x07]
    s.CanStep ∧ s.Inv ∧ ¬ OperandRejected s.params 0x07#8 ∧ s.pc.toNat + 5 ≤ 255 ∧
    s.memRead s.pc = s.params.opcodes.ldi ∧ s.memRead (s.pc + 1#8) = 0x07#8 ∧ s.memRead (s.pc + 2#8) = 0xFF#8 ∧
    s.memRead (s.pc + 3#8) = s.params.opcodes.prn ∧ s.memRead (s.pc + 4#8) = 0x07#8 := by decide
/-- The byte at an address once `v` has gone into the cell below the stack top. -/
def seen (s : State) (v a : Byte) : Byte := if a = s.regs[7] - 1#8 then v else s.memRead a

/-- What the statement about the stored byte assumes of the storing instruction. -/
abbrev Stores (s : State) (i : Instr) (rest : List Byte) : Prop :=
  s.CanStep ∧ Memory.wf s.mem = true ∧
  decode s.params [s.memRead s.pc, s.memRead (s.pc + 1#8), s.memRead (s.pc + 2#8)] = .ok (i, rest) ∧
  ¬ AddressRejected s.params (s.pc.toNat + 1) ∧ s.Executes i

/-- Program P7 before its PUSH, under `wrap`: the byte is the next opcode. -/
theorem witness_pushed_opcode : let s := core dflt (regs 1 0 0 0 9) 6 0 [0x45, 0x00]
    Stores s (.push 0x00#8) [0x00#8] ∧ s.regs[7] - 1#8 = s.pc + 2#8 ∧
    decode s.params [seen s 1#8 8#8, seen s 1#8 9#8, seen s 1#8 10#8] = .ok (.hlt, [0x00#8, 0x00#8]) := by decide
/-- Under `ADDR_OVERFLOW = fault`, at the last accepted addresses: the byte is the next instruction's operand. -/
theorem witness_pushed_operand : let s := core strict (regs 7 0 0 0 0xFF) 251 0 [0x45, 0x00, 0x47]
    Stores s (.push 0x00#8) [0x47#8] ∧ s.regs[7] - 1#8 = s.pc + 3#8 ∧
    decode s.params [seen s 7#8 253#8, seen s 7#8 254#8, seen s 7#8 255#8] = .ok (.prn 0x07#8, [0x00#8]) ∧
    ¬ AddressRejected s.params ((253#8 : Byte).toNat + 1) := by decide
/-- `PUSH R7` puts 0x47, the byte of PRINT_REGISTER, into the cell 0x47, which is fetched next. -/
theorem witness_pushed_sp : let s := core strict (regs 0 0 0 0 0x48) 0x45 0 [0x45, 0x07]
    Stores s (.push 0x07#8) [0x00#8] ∧ s.regs[7] - 1#8 = s.pc + 2#8 ∧
    decode s.params [seen s 0x47#8 0x47#8, seen s 0x47#8 0x48#8, seen s 0x47#8 0x49#8] =
      .ok (.prn 0x00#8, [0x00#8]) := by decide
/-- `CALL R7` runs the return address it pushed: 0x11 is RETURN. -/
theorem witness_called_return_address : let s := core strict (regs 0 0 0 0 0xF4) 0x0F 0 [0x50, 0x07]
    Stores s (.call 0x07#8) [0x00#8] ∧
    decode s.params [seen s 0x11#8 0xF3#8, seen s 0x11#8 0xF4#8, seen s 0x11#8 0xF5#8] =
      .ok (.ret, [0x00#8, 0x00#8]) := by decide
/-- One byte further on the return address 0x12 is no opcode. -/
theorem witness_called_illegal : let s := core strict (regs 0 0 0 0 0xF4) 0x10 0 [0x50, 0x07]
    Stores s (.call 0x07#8) [0x00#8] ∧ lookupOp s.params (seen s 0x12#8 0xF3#8) = none := by decide

end Sys2Proof.Tests
end

section
/-!
SUPPORT. What each instruction does, said once: the checks it makes, in the order of R175, and the effect it has when
all hold. What is claimed of every instruction follows from `exec_eq`.
-/

namespace Sys2Proof.Machine

/-- The fault of a register operand byte, if the policy rejects it (R68). -/
def operandFault (p : Params) (o : Byte) : Option Raise :=
  if OperandRejected p o then some { cause := .badRegister, info := some o.toNat } else none

/-- The fault of reading a register, if it holds no value (R22). -/
def State.valueFault (s : State) (r : RegIndex) : Option Raise :=
  if s.NoValue r then some { cause := .unwrittenRegister, info := some r.val } else none

/-- The fault of computing an address, if it is rejected (R43). -/
def addressFault (p : Params) (n : Int) : Option Raise :=
  if AddressRejected p n then some { cause := .addressOverflow, info := some n } else none

/-- What an instruction checks, in the order in which R175 reports: its register operands, the registers it needs,
the addresses it computes. -/
def State.checks (s : State) (i : Instr) : List (Option Raise) :=
  i.regOperands.map (operandFault s.params) ++ (s.neededRegs i).map s.valueFault ++
    (s.computedAddresses i).map (addressFault s.params)

/-- The state an instruction answers when none of its checks fails. -/
def State.effect (s : State) : Instr → State
  | .hlt => { s with runState := .halted }
  | .ldi a b => { s with
      regs := s.regs.set (operandIndex a) b
      written := s.written.set (operandIndex a) true
      pc := s.pc + 3#8 }
  | .prn a => { s with
      output := s.output ++ [{ index := operandIndex a, value := s.regs[operandIndex a] }]
      pc := s.pc + 2#8 }
  | .mul a b => { s with
      regs := s.regs.set (operandIndex a) (s.regs[operandIndex a] * s.regs[operandIndex b])
      written := s.written.set (operandIndex a) true
      pc := s.pc + 3#8 }
  | .push a => { s with
      regs := s.regs.set 7 (s.regs[7] - 1#8)
      written := s.written.set 7 true
      mem := Memory.write s.mem (s.regs[7] - 1#8).toNat
        (if operandIndex a = 7 then s.regs[7] - 1#8 else s.regs[operandIndex a])
      pc := s.pc + 2#8 }
  | .pop a => { s with
      regs := (s.regs.set (operandIndex a) (s.memRead s.regs[7])).set 7 (s.popBase a + 1#8)
      written := (s.written.set (operandIndex a) true).set 7 true
      pc := s.pc + 2#8 }
  | .call a => { s with
      regs := s.regs.set 7 (s.regs[7] - 1#8)
      written := s.written.set 7 true
      mem := Memory.write s.mem (s.regs[7] - 1#8).toNat (s.pc + 2#8)
      pc := if operandIndex a = 7 then s.regs[7] - 1#8 else s.regs[operandIndex a] }
  | .ret => { s with
      regs := s.regs.set 7 (s.regs[7] + 1#8)
      written := s.written.set 7 true
      pc := s.memRead s.regs[7] }
  | .cmp a b => { s with
      fl := compareFlags s.params s.regs[operandIndex a] s.regs[operandIndex b]
      pc := s.pc + 3#8 }
  | .jmp a => { s with pc := s.regs[operandIndex a] }
  | .jeq a => { s with
      pc := if s.equalBit then s.regs[operandIndex a] else s.pc + 2#8
      fl := if s.equalBit then 0#8 else s.fl }
  | .jne a => { s with
      pc := if s.equalBit then s.pc + 2#8 else s.regs[operandIndex a]
      fl := if s.equalBit then s.fl else 0#8 }
  | .add a b => { s with
      regs := s.regs.set (operandIndex a) (s.regs[operandIndex a] + s.regs[operandIndex b])
      written := s.written.set (operandIndex a) true
      pc := s.pc + 3#8 }

/-- How an instruction ends: the first failed check enters Faulted; with none, `t` is the next state (R87, R173). -/
def State.endsIn (s : State) (checks : List (Option Raise)) (t : State) : State :=
  match checks.findSome? id with
  | some r => s.enterFault r
  | none => t

/-- `x` makes the one check `f`: it raises what the check finds and answers `a` otherwise. -/
def Makes {α : Type} (x : Except Raise α) (f : Option Raise) (a : α) : Prop :=
  match f with
  | some r => x = .error r
  | none => x = .ok a

/-- An operation with two answers, one for each side of `P`, makes the check of `P`. -/
theorem makes_ite {α : Type} {P : Prop} [Decidable P] {x : Except Raise α} {r : Raise} {a : α}
    (hfail : P → x = .error r) (hhold : ¬ P → x = .ok a) : Makes x (if P then some r else none) a := by
  split
  · next h => exact hfail h
  · next h => exact hhold h

theorem regIndex_makes (p : Params) (o : Byte) : Makes (regIndex p o) (operandFault p o) (operandIndex o) :=
  makes_ite regIndex_rejected regIndex_accepted

theorem regRead_makes (s : State) (r : RegIndex) : Makes (s.regRead r) (s.valueFault r) s.regs[r] :=
  makes_ite regRead_noValue regRead_value

theorem decSp_makes (s : State) :
    Makes s.decSp (addressFault s.params (s.regs[7].toNat - 1)) (s.regWrite 7 (s.regs[7] - 1#8)) :=
  makes_ite decSp_rejected decSp_accepted

theorem incSp_makes (s : State) :
    Makes s.incSp (addressFault s.params (s.regs[7].toNat + 1)) (s.regWrite 7 (s.regs[7] + 1#8)) :=
  makes_ite incSp_rejected incSp_accepted

theorem pcPlus_makes (s : State) (k : Nat) :
    Makes (s.pcPlus k) (addressFault s.params (s.pc.toNat + k)) (s.pc + BitVec.ofNat 8 k) :=
  makes_ite pcPlus_rejected pcPlus_accepted

theorem advance_makes (s : State) (n : Nat) :
    Makes (s.advance n) (addressFault s.params (s.pc.toNat + (1 + n : Nat)))
      { s with pc := s.pc + BitVec.ofNat 8 (1 + n) } :=
  makes_ite advance_rejected advance_accepted

/-- The first check of an instruction: the rest of its body runs only when it holds. -/
theorem complete_bind {α : Type} {s t : State} {x : Except Raise α} {f : Option Raise} {a : α}
    {k : α → Except Raise State} {fs : List (Option Raise)} (hx : Makes x f a)
    (hk : f = none → s.complete (k a) = .next (s.endsIn fs t)) :
    s.complete (x >>= k) = .next (s.endsIn (f :: fs) t) := by
  cases f with
  | some r => rw [show x = .error r from hx]; rfl
  | none => rw [show x = .ok a from hx]; exact hk rfl

/-- An operation that cannot fail is no check. -/
theorem complete_bind_ok {α : Type} {s : State} {x : Except Raise α} {a : α} {k : α → Except Raise State}
    {r : Host.Outcome State Fault Refusal} (hx : x = .ok a) (hk : s.complete (k a) = r) :
    s.complete (x >>= k) = r := by
  rw [hx]; exact hk

/-- An instruction whose last check gives the next state. -/
theorem complete_last {s t : State} {x : Except Raise State} {f : Option Raise} (hx : Makes x f t) :
    s.complete x = .next (s.endsIn [f] t) := by
  cases f <;> rw [show x = _ from hx] <;> rfl

/-- Writing one register leaves every other as it was. -/
theorem getElem_set_of_ne {α : Type} (xs : Vector α 8) {r j : RegIndex} (v : α) (h : r ≠ j) :
    (xs.set j v)[r] = xs[r] :=
  Vector.getElem_set_ne j.isLt r.isLt fun e => h (Fin.ext e.symm)

/-- A register that could be read before a write can be read after it: the written byte, or its own. -/
theorem regRead_regWrite {s : State} {r : RegIndex} (h : s.valueFault r = none) (j : RegIndex) (v : Byte) :
    (s.regWrite j v).regRead r = .ok (if r = j then v else s.regs[r]) := by
  have hr : ¬ s.NoValue r := by simpa [State.valueFault] using h
  rw [regRead_value fun hn => hr ((noValue_regWrite s j r v).1 hn).1]
  by_cases hj : r = j
  · subst hj; simp
  · rw [regWrite_regs, getElem_set_of_ne _ _ hj, if_neg hj]

theorem exec_hlt (s : State) : exec .hlt s = .next (s.endsIn (s.checks .hlt) (s.effect .hlt)) := rfl

theorem exec_ldi (s : State) (a b : Byte) :
    exec (.ldi a b) s = .next (s.endsIn (s.checks (.ldi a b)) (s.effect (.ldi a b))) :=
  complete_bind (regIndex_makes _ _) fun _ => complete_last (advance_makes _ _)

theorem exec_prn (s : State) (a : Byte) :
    exec (.prn a) s = .next (s.endsIn (s.checks (.prn a)) (s.effect (.prn a))) :=
  complete_bind (regIndex_makes _ _) fun _ => complete_bind (regRead_makes _ _) fun _ =>
    complete_last (advance_makes _ _)

/-- The stack pointer after it was written. -/
@[simp] theorem sp_regWrite (s : State) (v : Byte) : (s.regWrite 7 v).sp = v := by
  simp [State.sp, spReg]

theorem exec_push (s : State) (a : Byte) :
    exec (.push a) s = .next (s.endsIn (s.checks (.push a)) (s.effect (.push a))) :=
  complete_bind (regIndex_makes _ _) fun _ => complete_bind (regRead_makes _ _) fun hr =>
    complete_bind (decSp_makes s) fun _ => by
      rw [sp_regWrite]
      exact complete_bind_ok (regRead_regWrite hr _ _) (complete_last (advance_makes _ _))

/-- POP's increment is that of `popBase`: the stack pointer after the loaded byte was written. -/
theorem regs_seven_regWrite (s : State) (a : Byte) :
    (s.regWrite (operandIndex a) (s.memRead s.sp)).regs[7] = s.popBase a := by
  by_cases h : operandIndex a = 7
  · simp [State.popBase, h, State.sp, spReg]
  · rw [State.popBase, if_neg h]
    exact getElem_set_of_ne (r := 7) _ _ (Ne.symm h)

theorem exec_pop (s : State) (a : Byte) :
    exec (.pop a) s = .next (s.endsIn (s.checks (.pop a)) (s.effect (.pop a))) :=
  complete_bind (regIndex_makes _ _) fun _ => by
    have hsp := incSp_makes (s.regWrite (operandIndex a) (s.memRead s.sp))
    rw [regs_seven_regWrite] at hsp
    exact complete_bind hsp fun _ => complete_last (advance_makes _ _)

theorem exec_call (s : State) (a : Byte) :
    exec (.call a) s = .next (s.endsIn (s.checks (.call a)) (s.effect (.call a))) :=
  complete_bind (regIndex_makes _ _) fun _ => complete_bind (regRead_makes _ _) fun hr =>
    complete_bind (decSp_makes s) fun _ => complete_bind (pcPlus_makes s 2) fun _ => by
      rw [sp_regWrite]
      exact complete_bind_ok (regRead_regWrite hr _ _) rfl

theorem exec_ret (s : State) : exec .ret s = .next (s.endsIn (s.checks .ret) (s.effect .ret)) :=
  (complete_last (s := s) (incSp_makes (s.jumpTo (s.memRead s.sp))) :)

/-- What MULTIPLY, COMPARE and ADD check, and that they put the ALU's result. -/
theorem complete_aluInstr (s : State) (k : AluOp) (a b : Byte) :
    s.complete (aluInstr k a b s) = .next (s.endsIn (s.checks (.mul a b))
      { s.putAlu (operandIndex a) (alu s.params k s.regs[operandIndex a] s.regs[operandIndex b]) with
        pc := s.pc + 3#8 }) := by
  refine complete_bind (regIndex_makes _ _) fun _ => complete_bind (regIndex_makes _ _) fun _ =>
    complete_bind (regRead_makes _ _) fun _ => complete_bind (regRead_makes _ _) fun _ => ?_
  cases k <;> exact complete_last (advance_makes _ _)

/-- The ALU's sum is that of the bytes. -/
theorem alu_add (p : Params) (x y : Byte) : alu p .add x y = { dest := some (x + y), fl := none } := by
  simp [alu]

/-- The ALU's product is that of the bytes. -/
theorem alu_multiply (p : Params) (x y : Byte) : alu p .multiply x y = { dest := some (x * y), fl := none } := by
  simp only [alu, u8]
  rw [← Int.natCast_mul, BitVec.ofInt_natCast, BitVec.ofNat_mul]
  simp

theorem exec_mul (s : State) (a b : Byte) :
    exec (.mul a b) s = .next (s.endsIn (s.checks (.mul a b)) (s.effect (.mul a b))) := by
  have h := complete_aluInstr s .multiply a b
  rw [alu_multiply] at h
  exact h

theorem exec_add (s : State) (a b : Byte) :
    exec (.add a b) s = .next (s.endsIn (s.checks (.add a b)) (s.effect (.add a b))) := by
  have h := complete_aluInstr s .add a b
  rw [alu_add] at h
  exact h

theorem exec_cmp (s : State) (a b : Byte) :
    exec (.cmp a b) s = .next (s.endsIn (s.checks (.cmp a b)) (s.effect (.cmp a b))) :=
  complete_aluInstr s .compare a b

theorem exec_jmp (s : State) (a : Byte) :
    exec (.jmp a) s = .next (s.endsIn (s.checks (.jmp a)) (s.effect (.jmp a))) :=
  complete_bind (regIndex_makes _ _) fun _ => complete_bind (regRead_makes _ _) fun _ => rfl

/-- What a conditional jump checks and does (R161, R162). -/
theorem complete_condJump (s : State) (taken : Bool) (a : Byte) :
    s.complete (condJump taken a s) = .next (s.endsIn
      [operandFault s.params a,
        if taken then s.valueFault (operandIndex a) else addressFault s.params (s.pc.toNat + 2)]
      { s with
        pc := if taken then s.regs[operandIndex a] else s.pc + 2#8
        fl := if taken then 0#8 else s.fl }) := by
  cases taken
  case false => exact complete_bind (regIndex_makes _ _) fun _ => complete_last (advance_makes _ _)
  case true => exact complete_bind (regIndex_makes _ _) fun _ => complete_bind (regRead_makes _ _) fun _ => rfl

theorem exec_jeq (s : State) (a : Byte) :
    exec (.jeq a) s = .next (s.endsIn (s.checks (.jeq a)) (s.effect (.jeq a))) := by
  refine (complete_condJump s s.equalBit a).trans ?_
  cases h : s.equalBit <;>
    simp only [State.checks, Instr.regOperands, State.neededRegs, State.computedAddresses, State.effect, h] <;> rfl

theorem exec_jne (s : State) (a : Byte) :
    exec (.jne a) s = .next (s.endsIn (s.checks (.jne a)) (s.effect (.jne a))) := by
  refine (complete_condJump s (!s.equalBit) a).trans ?_
  cases h : s.equalBit <;>
    simp only [State.checks, Instr.regOperands, State.neededRegs, State.computedAddresses, State.effect, h] <;> rfl

/-- What every instruction does: it makes its checks in the order of R175 and, when all hold, has its effect. -/
theorem exec_eq (i : Instr) (s : State) : exec i s = .next (s.endsIn (s.checks i) (s.effect i)) := by
  cases i with
  | hlt => exact exec_hlt s
  | ldi a b => exact exec_ldi s a b
  | prn a => exact exec_prn s a
  | mul a b => exact exec_mul s a b
  | push a => exact exec_push s a
  | pop a => exact exec_pop s a
  | call a => exact exec_call s a
  | ret => exact exec_ret s
  | cmp a b => exact exec_cmp s a b
  | jmp a => exact exec_jmp s a
  | jeq a => exact exec_jeq s a
  | jne a => exact exec_jne s a
  | add a b => exact exec_add s a b

end Sys2Proof.Machine
end

section
/-!
PROOFS of the statements about the state (10_state.md): how an instruction and a step can end, what an effect leaves
unchanged, the invariant, and reset.
-/

namespace Sys2Proof.Machine

/-! ### How an instruction and a step can end -/

/-- No check of an instruction fails exactly when the instruction executes. -/
theorem checks_hold_iff (i : Instr) (s : State) : (∀ f ∈ s.checks i, f = none) ↔ s.Executes i := by
  simp only [State.checks, List.forall_mem_append, List.forall_mem_map, operandFault, State.valueFault, addressFault,
    ite_eq_right_iff, reduceCtorEq, imp_false, and_assoc]

/-- With no failed check an instruction has its effect. -/
theorem exec_of_executes {i : Instr} {s : State} (h : s.Executes i) : exec i s = .next (s.effect i) := by
  have hnone : (s.checks i).findSome? id = none := List.findSome?_eq_none_iff.2 ((checks_hold_iff i s).2 h)
  rw [exec_eq, State.endsIn, hnone]

/-- The first failed check is the fault an instruction enters. -/
theorem exec_of_failed_check {i : Instr} {s : State} {c : FaultCause} {info : Option Int}
    (h : (s.checks i).findSome? id = some { cause := c, info := info }) : exec i s = .next (s.faultedWith c info) := by
  rw [exec_eq, State.endsIn, h]
  rfl

/-- An instruction has its effect, or one of its checks failed and it faults. -/
theorem exec_cases {i : Instr} {s t : State} (h : exec i s = .next t) :
    (s.Executes i ∧ t = s.effect i) ∨ ∃ r, some r ∈ s.checks i ∧ t = s.enterFault r := by
  cases hf : (s.checks i).findSome? id with
  | none =>
    have hx : s.Executes i := (checks_hold_iff i s).1 (List.findSome?_eq_none_iff.1 hf)
    rw [exec_of_executes hx] at h
    exact .inl ⟨hx, (Host.Outcome.next.inj h).symm⟩
  | some r =>
    rw [exec_of_failed_check hf] at h
    obtain ⟨f, hmem, rfl⟩ := List.exists_of_findSome?_eq_some hf
    exact .inr ⟨r, hmem, (Host.Outcome.next.inj h).symm⟩

/-- The first element with a property is the one a search for a fault finds. -/
theorem findSome?_of_find? {α : Type} {P : α → Prop} [DecidablePred P] {l : List α} {a : α} (g : α → Raise)
    (h : l.find? (fun x => decide (P x)) = some a) :
    l.findSome? (fun x => if P x then some (g x) else none) = some (g a) := by
  induction l with
  | nil => cases h
  | cons b l ih =>
    by_cases hb : P b
    · obtain rfl : b = a := by simpa [hb] using h
      simp [hb]
    · simpa [hb] using ih (by simpa [hb] using h)

/-- A step that answers runs one instruction of the Running core, or its fetch faults. -/
theorem step_cases {s t : State} (h : step s = .next t) :
    s.CanStep ∧
      ((∃ i, State.fetch { s with runState := .running } = .ok i ∧ exec i { s with runState := .running } = .next t) ∨
        ∃ r, State.fetch { s with runState := .running } = .error r ∧
          t = State.enterFault { s with runState := .running } r) := by
  have hs : s.CanStep := by
    cases hr : s.runState with
    | ready => exact .inl hr
    | running => exact .inr hr
    | halted | faulted => simp [step, hr] at h
  rw [step_of_canStep s hs, State.cycle] at h
  refine ⟨hs, ?_⟩
  cases hf : State.fetch { s with runState := .running } with
  | ok i => rw [hf] at h; exact .inl ⟨i, rfl, h⟩
  | error r => rw [hf] at h; exact .inr ⟨r, rfl, (Host.Outcome.next.inj h).symm⟩

/-! ### The frame of an instruction's effect -/

section
variable (s : State) (i : Instr)

@[simp] theorem effect_params : (s.effect i).params = s.params := by cases i <;> rfl
@[simp] theorem effect_loaded : (s.effect i).loaded = s.loaded := by cases i <;> rfl
@[simp] theorem effect_faultRecord : (s.effect i).faultRecord = s.faultRecord := by cases i <;> rfl

/-- HALT alone changes the run state (R30, R100). -/
theorem effect_runState : (s.effect i).runState = if i = .hlt then .halted else s.runState := by
  cases i <;> simp [State.effect]

/-- No effect enters Faulted. -/
theorem effect_not_faulted (h : s.runState ≠ .faulted) : (s.effect i).runState ≠ .faulted := by
  rw [effect_runState]
  split
  · decide
  · exact h

/-- PRINT_REGISTER alone emits (R92, R101). -/
theorem effect_output_of_ne_prn (h : i.op ≠ .prn) : (s.effect i).output = s.output := by
  cases i with
  | prn a => exact absurd rfl h
  | _ => rfl

/-- COMPARE and the conditional jumps alone write `FL` (R27). -/
theorem effect_fl_of_op (hc : i.op ≠ .cmp) (he : i.op ≠ .jeq) (hn : i.op ≠ .jne) : (s.effect i).fl = s.fl := by
  cases i with
  | cmp a b => exact absurd rfl hc
  | jeq a => exact absurd rfl he
  | jne a => exact absurd rfl hn
  | _ => rfl

theorem effect_jeq_fl (a : Byte) : (s.effect (.jeq a)).fl = if s.equalBit then 0#8 else s.fl := rfl
theorem effect_jne_fl (a : Byte) : (s.effect (.jne a)).fl = if s.equalBit then s.fl else 0#8 := rfl

end

/-- Setting a bit leaves every set bit set. -/
theorem getElem_set_true {xs : Vector Bool 8} {r : RegIndex} (j : RegIndex) (h : xs[r] = true) :
    (xs.set j true)[r] = true := by
  by_cases hr : r = j
  · subst hr; simp
  · rw [getElem_set_of_ne xs true hr, h]

/-- A register that is no destination keeps its value (R21) and stays written or unwritten (R22). -/
theorem effect_register_of_not_mem (s : State) (i : Instr) {r : RegIndex} (h : r ∉ destinations i) :
    (s.effect i).regs[r] = s.regs[r] ∧ (s.effect i).written[r] = s.written[r] := by
  cases i with
  | hlt | prn | cmp | jmp | jeq | jne => exact ⟨rfl, rfl⟩
  | ldi a b | mul a b | add a b =>
    have hr : r ≠ operandIndex a := fun e => h (by simp [destinations, e])
    exact ⟨getElem_set_of_ne _ _ hr, getElem_set_of_ne _ _ hr⟩
  | push | call | ret =>
    have hr : r ≠ 7 := fun e => h (by simp [destinations, e])
    exact ⟨getElem_set_of_ne _ _ hr, getElem_set_of_ne _ _ hr⟩
  | pop a =>
    have hr : r ≠ operandIndex a ∧ r ≠ 7 := by simpa [destinations] using h
    exact ⟨(getElem_set_of_ne _ _ hr.2).trans (getElem_set_of_ne _ _ hr.1),
      (getElem_set_of_ne _ _ hr.2).trans (getElem_set_of_ne _ _ hr.1)⟩

/-- No effect makes a written register unwritten (R22). -/
theorem effect_written_of_written {s : State} (i : Instr) {r : RegIndex} (h : s.written[r] = true) :
    (s.effect i).written[r] = true := by
  cases i with
  | hlt | prn | cmp | jmp | jeq | jne => exact h
  | ldi a b | mul a b | add a b => exact getElem_set_true (operandIndex a) h
  | push | call | ret => exact getElem_set_true 7 h
  | pop a => exact getElem_set_true 7 (getElem_set_true (operandIndex a) h)

/-- Every effect keeps memory in its canonical form. -/
theorem effect_mem_wf {s : State} (i : Instr) (h : Memory.wf s.mem = true) : Memory.wf (s.effect i).mem = true := by
  cases i with
  | push | call => exact Memory.write_wf h (BitVec.isLt _) _
  | _ => exact h

/-! ### The flags -/

/-- COMPARE sets one of E, G and L (R122). -/
theorem compareFlags_cases (p : Params) (x y : Byte) :
    compareFlags p x y = flBit p.flLayout.e ∨ compareFlags p x y = flBit p.flLayout.g ∨
      compareFlags p x y = flBit p.flLayout.l := by
  simp only [compareFlags, flClear, BitVec.zero_or]
  split
  · exact .inl rfl
  · split
    · exact .inr (.inl rfl)
    · exact .inr (.inr rfl)

/-- Both readings of a byte tell any two bytes apart. -/
theorem cmpval_inj (p : Params) {x y : Byte} : cmpval p x = cmpval p y ↔ x = y := by
  refine ⟨fun h => BitVec.eq_of_toNat_eq ?_, congrArg _⟩
  have hx := x.isLt
  have hy := y.isLt
  simp only [cmpval, sval] at h
  split_ifs at h <;> omega

/-- The bits of an `FL` value with one bit set. -/
theorem flBit_getLsbD (i j : Fin 8) : (flBit i).getLsbD j.val = decide (i = j) := by
  revert i j; decide

/-- After a COMPARE, E says whether the two bytes are equal (R122), under any layout R26 allows. -/
theorem compareFlags_equalBit {p : Params} (h : p.flLayout.WellFormed) (x y : Byte) :
    (compareFlags p x y).getLsbD p.flLayout.e.val = decide (x = y) := by
  obtain ⟨heg, hel, _⟩ := h
  simp only [compareFlags, flClear, BitVec.zero_or, cmpval_inj]
  split
  · next hxy => rw [flBit_getLsbD, hxy]; simp
  · next hxy => split <;> rw [flBit_getLsbD] <;> simp [hxy, heg.symm, hel.symm]

/-- E is clear after a JUMP_IF_EQUAL, taken or not (R161). -/
theorem effect_jeq_equalBit (s : State) (a : Byte) : (s.effect (.jeq a)).equalBit = false := by
  show (s.effect (.jeq a)).fl.getLsbD s.params.flLayout.e.val = false
  rw [effect_jeq_fl]
  split
  · exact BitVec.getLsbD_zero
  · next h => exact eq_false_of_ne_true h

/-- A JUMP_IF_NOT_EQUAL, taken or not, leaves E as it was (R162). -/
theorem effect_jne_equalBit (s : State) (a : Byte) : (s.effect (.jne a)).equalBit = s.equalBit := by
  show (s.effect (.jne a)).fl.getLsbD s.params.flLayout.e.val = s.equalBit
  rw [effect_jne_fl]
  split
  · rfl
  · next h => rw [eq_false_of_ne_true h]; exact BitVec.getLsbD_zero

/-- The values `FL` can hold after an effect: one of R29's four, if it held one before. -/
theorem effect_fl_mem {s : State} (i : Instr)
    (h : s.fl ∈ [0#8, flBit s.params.flLayout.e, flBit s.params.flLayout.g, flBit s.params.flLayout.l]) :
    (s.effect i).fl ∈ [0#8, flBit s.params.flLayout.e, flBit s.params.flLayout.g, flBit s.params.flLayout.l] := by
  cases i with
  | cmp a b =>
    have hfl := compareFlags_cases s.params s.regs[operandIndex a] s.regs[operandIndex b]
    refine List.mem_cons_of_mem _ ?_
    simp only [List.mem_cons, List.not_mem_nil, or_false]
    exact hfl
  | jeq a =>
    rw [effect_jeq_fl]
    split
    · exact List.mem_cons_self
    · exact h
  | jne a =>
    rw [effect_jne_fl]
    split
    · exact h
    · exact List.mem_cons_self
  | _ => exact h

/-! ### The invariant -/

/-- A fault keeps the invariant: it writes the record as it enters Faulted. -/
theorem enterFault_inv {s : State} (h : s.Inv) (r : Raise) : (s.enterFault r).Inv := by
  obtain ⟨hmem, hfl, _, hparams, h7, hzero⟩ := h
  exact ⟨hmem, hfl, by simp, hparams, h7, hzero⟩

/-- An effect keeps the invariant. -/
theorem effect_inv {s : State} (i : Instr) (h : s.Inv) (hs : s.runState ≠ .faulted) : (s.effect i).Inv := by
  obtain ⟨hmem, hfl, hrec, hparams, h7, hzero⟩ := h
  have hrec' : (s.effect i).faultRecord.isSome = true ↔ (s.effect i).runState = .faulted := by
    simp [effect_not_faulted s i hs, hrec, hs]
  refine ⟨effect_mem_wf i hmem, ?_, hrec', ?_, effect_written_of_written (r := 7) i h7, ?_⟩
  · rw [effect_params]; exact effect_fl_mem i hfl
  · rw [effect_params]; exact hparams
  · rw [effect_params]; exact fun hz r => effect_written_of_written i (hzero hz r)

/-- Every instruction keeps the invariant. -/
theorem exec_inv {i : Instr} {s t : State} (h : s.Inv) (hs : s.runState ≠ .faulted) (ht : exec i s = .next t) :
    t.Inv := by
  rcases exec_cases ht with ⟨_, rfl⟩ | ⟨r, _, rfl⟩
  · exact effect_inv i h hs
  · exact enterFault_inv h r

/-- A core that can step keeps the invariant as it becomes Running. -/
theorem running_inv {s : State} (h : s.Inv) (hs : s.CanStep) : State.Inv { s with runState := .running } := by
  obtain ⟨hmem, hfl, hrec, hparams, h7, hzero⟩ := h
  have hnot : s.runState ≠ .faulted := by rcases hs with hs | hs <;> simp [hs]
  have hnone : ¬ s.faultRecord.isSome = true := fun h => hnot (hrec.1 h)
  exact ⟨hmem, hfl, ⟨fun h => absurd h hnone, nofun⟩, hparams, h7, hzero⟩

/-- Settles O3: a step is a fault, or the effect of one instruction, of the Running core, and each keeps the
invariant. -/
theorem everyStepKeepsTheInvariant : Obligations.EveryStepKeepsTheInvariant := by
  intro s t hinv h
  obtain ⟨hs, ⟨i, _, ht⟩ | ⟨r, _, rfl⟩⟩ := step_cases h
  · exact exec_inv (running_inv hinv hs) nofun ht
  · exact enterFault_inv (running_inv hinv hs) r

/-! ### The opcode a step fetches -/

/-- A row's operands give an instruction of that row. -/
theorem takeOperands_op {k : Op} {bytes rest : List Byte} {i : Instr} (h : takeOperands k bytes = some (i, rest)) :
    i.op = k := by
  unfold takeOperands at h
  split at h <;> cases h <;> rfl

/-- What decodes is an instruction of the row its opcode byte selects. -/
theorem decode_op {p : Params} {op : Byte} {bytes rest : List Byte} {i : Instr}
    (h : decode p (op :: bytes) = .ok (i, rest)) : lookupOp p op = some i.op := by
  simp only [decode] at h
  split at h
  · cases h
  · next k hk =>
    split at h
    · cases h
    · next r hr =>
      cases h
      rw [hk, takeOperands_op hr]

/-- What is fetched is an instruction of the row the byte at the pc selects. -/
theorem fetch_op {s : State} {i : Instr} (h : s.fetch = .ok i) : lookupOp s.params (s.memRead s.pc) = some i.op := by
  simp only [State.fetch] at h
  split at h
  · cases h
  · cases hb : s.fetchBytes 1 (opcodeOC (s.memRead s.pc)) with
    | error e => rw [hb] at h; cases h
    | ok bytes =>
      simp only [hb, bind, Except.bind] at h
      split at h
      · next hd => cases h; exact decode_op hd
      · cases h

/-- A byte that selects a row is the row's byte. -/
theorem byteOf_of_lookupOp {p : Params} {op : Byte} {k : Op} (h : lookupOp p op = some k) :
    p.opcodes.byteOf k = op := by
  have hsel := List.find?_some h
  simp only [selects, Bool.and_eq_true, beq_iff_eq] at hsel
  obtain ⟨⟨_, hbyte⟩, _⟩ := hsel
  exact hbyte

/-- Under a legal map HALT's byte is fetched as HALT, with no operand read. -/
theorem fetch_hlt {s : State} (hp : s.params.WellFormed) (h : s.memRead s.pc = s.params.opcodes.hlt) :
    s.fetch = .ok .hlt := by
  have hcount : opcodeOC s.params.opcodes.hlt = 0 := hp.1.1 .hlt (by decide)
  have hlook : lookupOp s.params s.params.opcodes.hlt = some .hlt :=
    List.find?_cons_of_pos (by simp [selects, Op.admitted, OpcodeMap.byteOf, hcount, Op.operandCount])
  simp [State.fetch, h, hlook, hcount, decode, takeOperands, bind, Except.bind]

/-- Settles O9: a step into Halted is neither a fault nor another instruction's effect, so it ran HALT, whose byte was
at the pc; and HALT's byte is fetched as HALT. -/
theorem onlyHaltEntersHalted : Obligations.OnlyHaltEntersHalted := by
  intro s hs hp
  constructor
  · rintro ⟨t, hstep, ht⟩
    obtain ⟨_, ⟨i, hf, hx⟩ | ⟨r, _, rfl⟩⟩ := step_cases hstep
    · rcases exec_cases hx with ⟨_, rfl⟩ | ⟨r, _, rfl⟩
      · have hi : i = .hlt := by simpa [effect_runState] using ht
        subst hi
        exact (byteOf_of_lookupOp (fetch_op hf)).symm
      · cases ht
    · cases ht
  · intro h
    refine ⟨{ s with runState := .halted }, ?_, rfl⟩
    have hf : State.fetch { s with runState := .running } = .ok .hlt := fetch_hlt hp h
    rw [step_of_canStep s hs, State.cycle, hf]
    rfl

/-- Settles O18: with every operand accepted the checks of the needed registers come first. -/
theorem unwrittenRegisterReadFaults : Obligations.UnwrittenRegisterReadFaults := by
  intro s i r hops hr
  apply exec_of_failed_check
  have hnone : i.regOperands.findSome? (operandFault s.params) = none :=
    List.findSome?_eq_none_iff.2 fun o ho => if_neg (hops o ho)
  have hsome : (s.neededRegs i).findSome? s.valueFault = some { cause := .unwrittenRegister, info := some r.val } :=
    findSome?_of_find? _ hr
  simp [State.checks, List.findSome?_append, List.findSome?_map, hnone, hsome]

/-! ### Frames -/

/-- Settles O33: a fault changes no register and an effect only its destinations. -/
theorem onlyDestinationRegistersChange : Obligations.OnlyDestinationRegistersChange := by
  intro i s t h
  rcases exec_cases h with ⟨_, rfl⟩ | ⟨r, _, rfl⟩
  · exact ⟨fun r hr => effect_register_of_not_mem s i hr, fun r hr => effect_written_of_written i hr,
      fun hs ht => absurd ht (effect_not_faulted s i hs)⟩
  · exact ⟨fun _ _ => ⟨rfl, rfl⟩, fun _ hr => hr, fun _ _ => ⟨rfl, rfl⟩⟩

/-- Settles O34: a fault keeps `FL`, and an effect writes it for COMPARE and the taken conditional jumps alone. -/
theorem writersOfTheFlagsRegister : Obligations.WritersOfTheFlagsRegister := by
  intro i s t h
  rcases exec_cases h with ⟨_, rfl⟩ | ⟨r, _, rfl⟩
  · refine ⟨fun _ => ⟨?_, ?_, ?_⟩, ?_, ?_, effect_fl_of_op s i, fun hs ht => absurd ht (effect_not_faulted s i hs)⟩
    · rintro ⟨a, b, rfl⟩
      exact compareFlags_cases _ _ _
    · rintro ⟨a, rfl⟩ he
      rw [effect_jeq_fl, if_pos he]
    · rintro ⟨a, rfl⟩ he
      rw [effect_jne_fl, he]; rfl
    · rintro ⟨a, rfl⟩ he
      rw [effect_jeq_fl, he]; rfl
    · rintro ⟨a, rfl⟩ he
      rw [effect_jne_fl, if_pos he]
  · exact ⟨fun ht => absurd rfl ht, fun _ _ => rfl, fun _ _ => rfl, fun _ _ _ => rfl, fun _ _ => rfl⟩

/-- No check reads the output. -/
theorem checks_output (s : State) (i : Instr) (before : List OutEvent) :
    State.checks { s with output := before } i = s.checks i := by
  cases i <;> rfl

/-- No effect reads the output; it puts the same events behind any other. -/
theorem effect_with_output (s : State) (i : Instr) (before : List OutEvent) :
    State.effect { s with output := before } i =
      { s.effect i with output := before ++ (s.effect i).output.drop s.output.length } := by
  cases i <;> simp [State.effect, State.popBase, State.memRead]

/-- Settles O37: a fault emits nothing, an effect what PRINT_REGISTER emits, and neither reads the output. -/
theorem outputStreamIsWrittenByPrintAlone : Obligations.OutputStreamIsWrittenByPrintAlone := by
  refine ⟨fun _ => rfl, fun i s t h => ?_, fun i s t before h => ?_⟩
  · rcases exec_cases h with ⟨_, rfl⟩ | ⟨r, _, rfl⟩
    · refine ⟨?_, effect_output_of_ne_prn s i, fun hs ht => absurd ht (effect_not_faulted s i hs)⟩
      rintro a rfl -
      rfl
    · exact ⟨fun _ _ ht => absurd rfl ht, fun _ => rfl, fun _ _ => rfl⟩
  · rw [exec_eq] at h
    cases h
    rw [exec_eq, checks_output, effect_with_output]
    unfold State.endsIn
    split
    · simp [State.enterFault, State.memRead]
    · rfl

/-- Settles O38: a fault writes the run state and the record alone, and no effect but HALT's writes either. -/
theorem controlStateFrame : Obligations.ControlStateFrame := by
  intro i s t h
  rcases exec_cases h with ⟨_, rfl⟩ | ⟨r, _, rfl⟩
  · refine ⟨effect_params s i, effect_loaded s i, ?_, fun _ => effect_faultRecord s i,
      fun ht hs => absurd ht (effect_not_faulted s i hs)⟩
    rw [effect_runState]
    split
    · next hi => exact .inr (.inr ⟨hi, rfl⟩)
    · exact .inl rfl
  · exact ⟨rfl, rfl, .inr (.inl rfl), fun ht => absurd rfl ht, fun _ _ => rfl⟩

/-! ### What of the flags can be observed -/

/-- The state with another `FL` and another signedness of COMPARE. -/
def State.relabelled (s : State) (f : Byte) (signed : Bool) : State :=
  { s with fl := f, params := { s.params with cmpSigned := signed } }

section
variable {s : State} {f : Byte} (signed : Bool) (h : f.getLsbD s.params.flLayout.e.val = s.equalBit)
include h

theorem equalBit_relabelled : (s.relabelled f signed).equalBit = s.equalBit := h

/-- No check reads `FL` outside E, or the signedness. -/
theorem checks_relabelled (i : Instr) : (s.relabelled f signed).checks i = s.checks i := by
  cases i with
  | jeq a | jne a =>
    simp only [State.checks, State.neededRegs, State.computedAddresses, equalBit_relabelled signed h]
    rfl
  | _ => rfl

/-- No effect reads `FL` outside E; and only the `FL` a COMPARE leaves depends on the signedness. -/
theorem effect_relabelled (i : Instr) :
    { (s.relabelled f signed).effect i with fl := (s.effect i).fl, params := (s.effect i).params } = s.effect i := by
  cases i with
  | jeq a | jne a =>
    simp only [State.effect, equalBit_relabelled signed h]
    rfl
  | _ => rfl

/-- The E bit after an effect depends on the E bit before it alone. -/
theorem effect_equalBit_relabelled (hl : s.params.flLayout.WellFormed) (i : Instr) :
    ((s.relabelled f signed).effect i).equalBit = (s.effect i).equalBit := by
  cases i with
  | cmp a b =>
    exact (compareFlags_equalBit (p := (s.relabelled f signed).params) hl _ _).trans (compareFlags_equalBit hl _ _).symm
  | jeq a => exact (effect_jeq_equalBit _ a).trans (effect_jeq_equalBit _ a).symm
  | jne a => exact (effect_jne_equalBit _ a).trans (h.trans (effect_jne_equalBit _ a).symm)
  | _ => exact h

end

/-- Settles O40: the two states make the same checks; a fault leaves their E bits alone, and their effects leave one
E bit and differ in no more. -/
theorem onlyTheEqualBitIsObservable : Obligations.OnlyTheEqualBitIsObservable := by
  intro i s t f signed hl hf h
  rw [exec_eq] at h
  cases h
  refine ⟨_, exec_eq i (s.relabelled f signed), ?_⟩
  rw [checks_relabelled signed hf]
  unfold State.endsIn
  split
  · exact ⟨hf, rfl⟩
  · exact ⟨effect_equalBit_relabelled signed hf hl i, effect_relabelled signed hf i⟩

/-! ### Reset -/

/-- A register other than R7 is written after reset exactly under `GPR_RESET = zero` (R35). -/
theorem resetWith_written (p : Params) {r : RegIndex} (h : r ≠ 7) :
    (State.resetWith p).written[r] = (p.gprReset == .zero) :=
  (getElem_set_of_ne _ (j := 7) _ h).trans (by simp)

theorem resetWith_regs (p : Params) {r : RegIndex} (h : r ≠ 7) : (State.resetWith p).regs[r] = 0#8 :=
  (getElem_set_of_ne _ (j := 7) _ h).trans (by simp [resetGpr])

/-- Settles O1, field by field. -/
theorem resetLeavesTheTableOfR35 : Obligations.ResetLeavesTheTableOfR35 := by
  refine ⟨fun p => ⟨rfl, rfl, rfl, fun _ => rfl, rfl, rfl, rfl, rfl, rfl, fun r hr => ?_, fun _ r hr => ?_⟩, rfl⟩
  · simp only [State.NoValue, resetWith_written p hr]
    cases hp : p.gprReset <;> simp [hr, hp, State.resetWith]
  · exact resetWith_regs p hr

/-- Reset meets the invariant under every legal value of the parameters. -/
theorem resetWith_inv {p : Params} (h : p.WellFormed) : (State.resetWith p).Inv := by
  refine ⟨rfl, List.mem_cons_self, by simp [State.resetWith], h, by simp [State.resetWith], fun hz r => ?_⟩
  by_cases hr : r = 7
  · subst hr; simp [State.resetWith]
  · rw [resetWith_written p hr]; simpa [State.resetWith] using hz

/-- Settles O2: the model's own parameters are legal. -/
theorem resetMeetsTheInvariant : Obligations.ResetMeetsTheInvariant :=
  ⟨fun _ => resetWith_inv, resetWith_inv (by decide)⟩

end Sys2Proof.Machine
end

section
/-!
PROOFS of the statements about memory (20_memory.md): which instructions store, what a read returns after writes and
after the load, the fault of a computed address, and that the next fetch sees a store.
-/

namespace Sys2Proof.Machine

/-! ### Computed addresses -/

/-- Settles O19: with every operand accepted and every register value present, the checks of the addresses come
first. -/
theorem computedAddressOverflowFaults : Obligations.ComputedAddressOverflowFaults := by
  intro s i n hops hvals hn
  apply exec_of_failed_check
  have hregs : i.regOperands.findSome? (operandFault s.params) = none :=
    List.findSome?_eq_none_iff.2 fun o ho => if_neg (hops o ho)
  have hvalues : (s.neededRegs i).findSome? s.valueFault = none :=
    List.findSome?_eq_none_iff.2 fun r hr => if_neg (hvals r hr)
  have haddr : (s.computedAddresses i).findSome? (addressFault s.params) =
      some { cause := .addressOverflow, info := some n } :=
    findSome?_of_find? _ hn
  simp [State.checks, List.findSome?_append, List.findSome?_map, hregs, hvalues, haddr]

/-! ### Who writes memory -/

/-- PUSH and CALL alone store (R49). -/
theorem effect_mem_of_op (s : State) {i : Instr} (hpush : i.op ≠ .push) (hcall : i.op ≠ .call) :
    (s.effect i).mem = s.mem := by
  cases i with
  | push a => exact absurd rfl hpush
  | call a => exact absurd rfl hcall
  | _ => rfl

/-- States with the same memory read alike. -/
theorem memRead_congr {s t : State} (h : t.mem = s.mem) (a : Byte) : t.memRead a = s.memRead a := by
  rw [State.memRead, h, State.memRead]

/-- Settles O35: neither a fault nor the effect of a form that stores nothing changes memory. -/
theorem nonStoringInstructionsKeepMemory : Obligations.NonStoringInstructionsKeepMemory := by
  intro i s t hpush hcall h
  rcases exec_cases h with ⟨_, rfl⟩ | ⟨r, _, rfl⟩
  · exact memRead_congr (effect_mem_of_op s hpush hcall)
  · exact memRead_congr rfl

/-! ### Reads after writes -/

/-- A read after at most 256 bytes were stored from `a` on: the byte stored at `b`, counted from `a` modulo 256, or
the byte of before. -/
theorem memRead_memWriteBytes (bytes : List Byte) {s : State} (hwf : Memory.wf s.mem = true) (a b : Byte)
    (hlen : bytes.length ≤ 256) :
    (s.memWriteBytes a bytes).memRead b = bytes.getD (b - a).toNat (s.memRead b) := by
  induction bytes generalizing s a with
  | nil => rfl
  | cons v rest ih =>
    rw [List.length_cons] at hlen
    rw [State.memWriteBytes, ih (memWrite_wf hwf a v) _ (by omega), memRead_memWrite hwf]
    by_cases hb : b = a
    · subst hb
      have hpast : rest.length ≤ (b - (b + 1#8)).toNat := by bv_omega
      rw [List.getD_eq_default _ _ hpast, if_pos rfl, BitVec.sub_self]
      rfl
    · have hnext : (b - a).toNat = (b - (a + 1#8)).toNat + 1 := by bv_omega
      rw [hnext, List.getD_cons_succ, if_neg hb]

/-- Settles O41: the load stores its bytes from address 0 on, so the byte at `b` is the one numbered `b`. -/
theorem memoryReadsTheLastWrite : Obligations.MemoryReadsTheLastWrite := by
  refine ⟨fun _ _ => rfl, fun s a v b hwf => memRead_memWrite hwf a v b, fun _ _ _ => rfl, ?_⟩
  intro bytes s t b hwf h
  obtain ⟨_, _, hlen, rfl⟩ := load_next h
  have hread := memRead_memWriteBytes bytes hwf 0#8 b hlen
  rw [BitVec.sub_zero] at hread
  exact hread

/-! ### What a step fetches -/

/-- When none of their addresses is rejected, the operand bytes are those at the addresses after the pc, in order. -/
theorem fetchBytes_eq_map (s : State) (k n : Nat)
    (h : ∀ j, k ≤ j → j < k + n → ¬ AddressRejected s.params (s.pc.toNat + j)) :
    s.fetchBytes k n = .ok ((List.range' k n).map fun j => s.memRead (s.pc + BitVec.ofNat 8 j)) := by
  induction n generalizing k with
  | zero => rfl
  | succ n ih =>
    rw [fetchBytes_accepted (h k (by omega) (by omega)), ih (k + 1) fun j hj hn => h j (by omega) (by omega),
      List.range'_succ, List.map_cons]
    rfl

/-- A row takes only its own operand bytes (R66). -/
theorem takeOperands_take {k : Op} {bytes rest : List Byte} {i : Instr} (h : takeOperands k bytes = some (i, rest)) :
    takeOperands k (bytes.take k.operandCount) = some (i, []) := by
  unfold takeOperands at h
  split at h <;> cases h <;> rfl

/-- A byte that selects a row names its operand count (R62). -/
theorem opcodeOC_of_lookupOp {p : Params} {op : Byte} {k : Op} (h : lookupOp p op = some k) :
    opcodeOC op = k.operandCount := by
  have hsel := List.find?_some h
  simp only [selects, Bool.and_eq_true, beq_iff_eq] at hsel
  exact hsel.2

/-- An instruction decodes from its own bytes alone (R63, R66). -/
theorem decode_take {p : Params} {op : Byte} {bytes rest : List Byte} {i : Instr}
    (h : decode p (op :: bytes) = .ok (i, rest)) : decode p (op :: bytes.take i.op.operandCount) = .ok (i, []) := by
  have hlook := decode_op h
  simp only [decode, hlook] at h ⊢
  cases htake : takeOperands i.op bytes with
  | none => rw [htake] at h; cases h
  | some r =>
    rw [htake] at h
    cases h
    rw [takeOperands_take htake]

/-- No row has more than two operand bytes (R60). -/
theorem operandCount_le_two (k : Op) : k.operandCount ≤ 2 := by
  cases k <;> decide

/-- When the bytes at the pc decode to `i` and no operand address is rejected, `i` is what is fetched. -/
theorem fetch_of_decode {s : State} {i : Instr} {rest : List Byte}
    (hdec : decode s.params [s.memRead s.pc, s.memRead (s.pc + 1#8), s.memRead (s.pc + 2#8)] = .ok (i, rest))
    (hacc : ∀ k : Nat, 1 ≤ k → k ≤ i.op.operandCount → ¬ AddressRejected s.params (s.pc.toNat + k)) :
    s.fetch = .ok i := by
  have hlook := decode_op hdec
  have hbytes : s.fetchBytes 1 i.op.operandCount =
      .ok ([s.memRead (s.pc + 1#8), s.memRead (s.pc + 2#8)].take i.op.operandCount) := by
    rw [fetchBytes_eq_map s 1 _ fun j hj hn => hacc j hj (by omega)]
    have hle := operandCount_le_two i.op
    generalize i.op.operandCount = n at hle
    interval_cases n <;> rfl
  simp [State.fetch, hlook, opcodeOC_of_lookupOp hlook, hbytes, decode_take hdec, bind, Except.bind]

/-- When the bytes at the pc decode to `i` and no operand address is rejected, a step executes `i` (R89). -/
theorem step_of_decode {s : State} {i : Instr} {rest : List Byte} (hs : s.CanStep)
    (hdec : decode s.params [s.memRead s.pc, s.memRead (s.pc + 1#8), s.memRead (s.pc + 2#8)] = .ok (i, rest))
    (hacc : ∀ k : Nat, 1 ≤ k → k ≤ i.op.operandCount → ¬ AddressRejected s.params (s.pc.toNat + k)) :
    step s = exec i { s with runState := .running } := by
  have hfetch : State.fetch { s with runState := .running } = .ok i := fetch_of_decode hdec hacc
  rw [step_of_canStep s hs, State.cycle, hfetch]

/-- When the byte at the pc selects no row, a step is its `IllegalOpcode` fault (R65). -/
theorem step_of_illegal {s : State} (hs : s.CanStep) (h : lookupOp s.params (s.memRead s.pc) = none) :
    step s = .next (s.faultedWith .illegalOpcode (some (s.memRead s.pc).toNat)) := by
  have hfetch : State.fetch { s with runState := .running } =
      .error { cause := .illegalOpcode, info := some (s.memRead s.pc).toNat } := fetch_illegal h
  rw [step_of_canStep s hs, State.cycle, hfetch]
  rfl

/-! ### The fetch after a store -/

/-- `i` is a PUSH or a CALL of operand `o` that stores `v` and leaves the pc `q` (R140, R150). -/
def State.Stores (s : State) (i : Instr) (o v q : Byte) : Prop :=
  let operand := if operandIndex o = 7 then s.regs[7] - 1#8 else s.regs[operandIndex o]
  (i = .push o ∧ v = operand ∧ q = s.pc + 2#8) ∨ (i = .call o ∧ v = s.pc + 2#8 ∧ q = operand)

/-- PUSH and CALL have one effect but for the byte stored and the pc. -/
theorem effect_of_stores {s : State} {i : Instr} {o v q : Byte} (h : s.Stores i o v q) :
    s.effect i = { s.memWrite (s.regs[7] - 1#8) v with
      regs := s.regs.set 7 (s.regs[7] - 1#8), written := s.written.set 7 true, pc := q } := by
  rcases h with ⟨rfl, rfl, rfl⟩ | ⟨rfl, rfl, rfl⟩ <;> rfl

/-- PUSH and CALL have one operand byte. -/
theorem operandCount_of_stores {s : State} {i : Instr} {o v q : Byte} (h : s.Stores i o v q) :
    i.op.operandCount = 1 := by
  rcases h with ⟨rfl, _⟩ | ⟨rfl, _⟩ <;> rfl

/-- Settles O48: the first step has the effect of the PUSH or CALL, a Running core whose memory reads as `seen`; and
the step after it depends on what it reads at the pc. -/
theorem nextFetchSeesThePushedByte : Obligations.NextFetchSeesThePushedByte := by
  intro s i o v q rest hs hwf c operand hstores hdec haddr hx seen
  have hstores : State.Stores { s with runState := .running } i o v q := hstores
  have hacc (k : Nat) (hk : 1 ≤ k) (hn : k ≤ i.op.operandCount) : ¬ AddressRejected s.params (s.pc.toNat + k) := by
    rw [operandCount_of_stores hstores] at hn
    obtain rfl : k = 1 := by omega
    exact haddr
  have hstep : step s = .next (State.effect { s with runState := .running } i) :=
    (step_of_decode hs hdec hacc).trans (exec_of_executes hx)
  have hseen (a : Byte) : (s.memWrite c v).memRead a = seen a := memRead_memWrite hwf c v a
  rw [effect_of_stores hstores] at hstep
  refine ⟨_, hstep, rfl, rfl, fun j rest' hj hacc' => ?_, fun hnone => ?_⟩
  · simp only [← hseen] at hj
    exact step_of_decode (.inr rfl) hj hacc'
  · rw [← hseen] at hnone ⊢
    exact step_of_illegal (.inr rfl) hnone

end Sys2Proof.Machine
end

section
/-!
PROOFS of the statements about the encoding (30_encoding.md): which row an opcode byte selects, that decoding and
encoding are inverse, the illegal opcode bytes, and the fault of a register operand byte.
-/

namespace Sys2Proof

open Machine

/-! ### The row an opcode byte selects -/

/-- `Op.all` lists every row (R64). -/
theorem mem_opAll (k : Op) : k ∈ Op.all := by
  cases k <;> decide

/-- A byte selects an admitted row whose byte it is and whose operand count it names. -/
theorem selects_iff {p : Params} {op : Byte} {k : Op} :
    selects p op k = true ↔
      k.admitted p = true ∧ p.opcodes.byteOf k = op ∧ opcodeOC op = k.operandCount := by
  simp [selects, and_assoc]

/-- The rows of a legal map have distinct bytes (R64). -/
theorem byteOf_injective {m : OpcodeMap} (h : m.WellFormed) {k k' : Op} (hk : m.byteOf k = m.byteOf k') : k = k' :=
  List.inj_on_of_nodup_map h.2 (mem_opAll k) (mem_opAll k') hk

/-- Settles O13: both rows have the byte that selects them. -/
theorem anOpcodeByteSelectsOneRow : Obligations.AnOpcodeByteSelectsOneRow := by
  intro p op k k' hwf hk hk'
  obtain ⟨_, hbyte, _⟩ := selects_iff.1 hk
  obtain ⟨_, hbyte', _⟩ := selects_iff.1 hk'
  exact byteOf_injective hwf (hbyte.trans hbyte'.symm)

/-- The row found is one the byte selects. -/
theorem selects_of_lookupOp {p : Params} {op : Byte} {k : Op} (h : lookupOp p op = some k) : selects p op k = true :=
  List.find?_some h

/-- Under a legal map the row found is the admitted row with the byte. -/
theorem lookupOp_eq_some_iff {p : Params} (hwf : p.opcodes.WellFormed) {op : Byte} {k : Op} :
    lookupOp p op = some k ↔ k.admitted p = true ∧ p.opcodes.byteOf k = op := by
  constructor
  · intro h
    obtain ⟨hadm, hbyte, _⟩ := selects_iff.1 (selects_of_lookupOp h)
    exact ⟨hadm, hbyte⟩
  · rintro ⟨hadm, rfl⟩
    have hsel : selects p (p.opcodes.byteOf k) k = true :=
      selects_iff.2 ⟨hadm, rfl, Laws.EncodingShape.opcodeOC_byteOf hwf k⟩
    obtain ⟨k', hfound⟩ := Option.isSome_iff_exists.1 (List.find?_isSome.2 ⟨k, mem_opAll k, hsel⟩)
    rw [lookupOp, hfound, anOpcodeByteSelectsOneRow p _ k' k hwf (selects_of_lookupOp hfound) hsel]

/-- Under a legal map the legal opcode bytes are those of the admitted rows (R65). -/
theorem lookupOp_isSome_iff {p : Params} (hwf : p.opcodes.WellFormed) (op : Byte) :
    (lookupOp p op).isSome = true ↔ op ∈ (Op.all.filter (Op.admitted p)).map p.opcodes.byteOf := by
  simp [Option.isSome_iff_exists, lookupOp_eq_some_iff hwf, mem_opAll]

/-- A byte of no admitted row is illegal, under any map (R65). -/
theorem lookupOp_eq_none {p : Params} {op : Byte}
    (h : ∀ k ∈ Op.all, k.admitted p = true → p.opcodes.byteOf k ≠ op) : lookupOp p op = none := by
  refine List.find?_eq_none.2 fun k hk hsel => ?_
  obtain ⟨hadm, hbyte, _⟩ := selects_iff.1 hsel
  exact h k hk hadm hbyte

/-- The operand count an opcode byte names is its bits [7:6] (R62). -/
theorem opcodeOC_eq_shiftRight (op : Byte) : opcodeOC op = (op >>> 6).toNat := by
  simp only [opcodeOC, BitVec.extractLsb'_toNat, BitVec.toNat_ushiftRight, Nat.shiftRight_eq_div_pow]
  omega

/-- Settles O14: a row that is found has the count its byte names, and no row has three operands. -/
theorem topBitsNameTheOperandCount : Obligations.TopBitsNameTheOperandCount := by
  intro p op _
  have hcount (k : Op) (h : lookupOp p op = some k) : k.operandCount = (op >>> 6).toNat := by
    rw [← opcodeOC_of_lookupOp h, opcodeOC_eq_shiftRight]
  refine ⟨hcount, fun htop => Option.eq_none_iff_forall_ne_some.2 fun k h => ?_⟩
  have hle := operandCount_le_two k
  rw [hcount k h] at hle
  omega

/-- The default map is legal (R64). -/
theorem defaultOpcodeMap_wellFormed : defaultParams.opcodes.WellFormed := by
  decide

/-- Settles O15: the legal bytes are those of the twelve rows the defaults admit; a byte of no admitted row is not
found, and its step faults. -/
theorem illegalOpcodesFault : Obligations.IllegalOpcodesFault := by
  refine ⟨fun op => ?_, fun s hs h => step_of_illegal hs (lookupOp_eq_none h)⟩
  rw [lookupOp_isSome_iff defaultOpcodeMap_wellFormed]
  exact List.Perm.mem_iff (by decide)

/-! ### Decode and encode -/

/-- The operand bytes of an instruction, in order (R61, R66). -/
def Instr.operands : Instr → List Byte
  | .hlt => []
  | .ldi a b => [a, b]
  | .prn a => [a]
  | .mul a b => [a, b]
  | .push a => [a]
  | .pop a => [a]
  | .call a => [a]
  | .ret => []
  | .cmp a b => [a, b]
  | .jmp a => [a]
  | .jeq a => [a]
  | .jne a => [a]
  | .add a b => [a, b]

/-- An encoding is the row's opcode byte and then the operand bytes (R61). -/
theorem encode_eq_cons (m : OpcodeMap) (i : Instr) : encode m i = m.byteOf i.op :: i.operands := by
  cases i <;> rfl

/-- An instruction has as many operand bytes as its row says (R60). -/
theorem length_operands (i : Instr) : i.operands.length = i.op.operandCount := by
  cases i <;> rfl

/-- A row reads an instruction when that is an instruction of the row and the bytes begin with its operands. -/
theorem takeOperands_eq_some_iff {k : Op} {bytes rest : List Byte} {i : Instr} :
    takeOperands k bytes = some (i, rest) ↔ i.op = k ∧ bytes = i.operands ++ rest := by
  constructor
  · intro h
    refine ⟨takeOperands_op h, ?_⟩
    unfold takeOperands at h
    split at h <;> cases h <;> rfl
  · rintro ⟨rfl, rfl⟩
    cases i <;> rfl

/-- Bytes decode to an instruction when the first selects its row and the others begin with its operands. -/
theorem decode_cons_eq_ok_iff {p : Params} {op : Byte} {bytes rest : List Byte} {i : Instr} :
    decode p (op :: bytes) = .ok (i, rest) ↔ lookupOp p op = some i.op ∧ bytes = i.operands ++ rest := by
  constructor
  · intro h
    have hlook := decode_op h
    simp only [decode, hlook] at h
    split at h
    · cases h
    · next htake =>
      cases h
      exact ⟨hlook, (takeOperands_eq_some_iff.1 htake).2⟩
  · rintro ⟨hlook, hbytes⟩
    simp only [decode, hlook, takeOperands_eq_some_iff.2 ⟨rfl, hbytes⟩]

/-- Settles O11: an encoding begins with the byte of its row, which a legal map finds, and goes on with its operands. -/
theorem decodeOfEncodeIsTheInstruction : Obligations.DecodeOfEncodeIsTheInstruction := by
  intro p i rest hwf hadm
  rw [encode_eq_cons, List.cons_append]
  exact decode_cons_eq_ok_iff.2 ⟨(lookupOp_eq_some_iff hwf).2 ⟨hadm, rfl⟩, rfl⟩

/-- Settles O12: the first byte is that of the row it selects and names its operand count. -/
theorem encodeOfDecodeIsTheBytes : Obligations.EncodeOfDecodeIsTheBytes := by
  intro p bytes rest i h
  cases bytes with
  | nil => cases h
  | cons op bytes =>
    obtain ⟨hlook, rfl⟩ := decode_cons_eq_ok_iff.1 h
    rw [encode_eq_cons, byteOf_of_lookupOp hlook]
    refine ⟨rfl, ?_⟩
    rw [List.headD_cons, opcodeOC_of_lookupOp hlook, List.length_cons, length_operands, Nat.add_comm]

/-- Settles O16, word by word: the decoder evaluates each. -/
theorem defaultWordsDecode : Obligations.DefaultWordsDecode :=
  ⟨rfl, rfl, rfl, rfl, rfl, rfl, rfl, rfl, rfl⟩

/-! ### Register operands -/

/-- Settles O17: the checks of the register operands come first. -/
theorem badRegisterOperandFaults : Obligations.BadRegisterOperandFaults := by
  intro s i o ho
  apply exec_of_failed_check
  have hregs : i.regOperands.findSome? (operandFault s.params) = some { cause := .badRegister, info := some o.toNat } :=
    findSome?_of_find? _ ho
  simp [State.checks, List.findSome?_append, List.findSome?_map, hregs]

end Sys2Proof
end

section
/-!
PROOFS of the statements about the execution cycle (40_execution_cycle.md): when a step exists, what an instruction
and a run answer, the fault of an operand fetch, the pc advance, and the load.
-/

namespace Sys2Proof.Machine

/-! ### What a step answers -/

/-- Settles O6: what decodes at the pc is what is fetched. -/
theorem stepRunsTheDecodedInstruction : Obligations.StepRunsTheDecodedInstruction :=
  fun _ _ _ hs hdec hacc => step_of_decode hs hdec hacc

/-- A fault of the fetch is the fault of the step (R82, R174). -/
theorem step_of_fetch_error {s : State} {r : Raise} (hs : s.CanStep)
    (h : State.fetch { s with runState := .running } = .error r) : step s = .next (s.faultedWith r.cause r.info) := by
  rw [step_of_canStep s hs, State.cycle, h]
  rfl

/-- In Ready and Running a step exists (R81). -/
theorem exists_step_of_canStep {s : State} (hs : s.CanStep) : ∃ t, step s = .next t := by
  cases hf : State.fetch { s with runState := .running } with
  | ok i => exact ⟨_, by rw [step_of_canStep s hs, State.cycle, hf]; exact exec_eq i _⟩
  | error r => exact ⟨_, step_of_fetch_error hs hf⟩

/-- An instruction of a core that is not Ready does not make it Ready (R30). -/
theorem exec_not_ready {i : Instr} {s t : State} (h : exec i s = .next t) (hs : s.runState ≠ .ready) :
    t.runState ≠ .ready := by
  obtain ⟨_, _, hr | hr | ⟨_, hr⟩, _⟩ := controlStateFrame i s t h <;> rw [hr]
  · exact hs
  · decide
  · decide

/-- No step ends in Ready (R30, R81). -/
theorem step_not_ready {s t : State} (h : step s = .next t) : t.runState ≠ .ready := by
  obtain ⟨_, ⟨i, _, hx⟩ | ⟨r, _, rfl⟩⟩ := step_cases h
  · exact exec_not_ready hx nofun
  · simp

/-- Settles O5: in Ready and Running `step` is one cycle of the Running core, which answers and is not Ready. -/
theorem stepIsDefinedOnlyInReadyAndRunning : Obligations.StepIsDefinedOnlyInReadyAndRunning := by
  refine ⟨fun s hs => ?_, fun s hs => ?_, fun s hs => ?_, fun s hs => ?_⟩
  · obtain ⟨t, ht⟩ := exists_step_of_canStep hs
    exact ⟨t, ht, step_not_ready ht⟩
  · rw [step_of_canStep s (.inl hs), step_of_canStep { s with runState := .running } (.inr rfl)]
  · rw [step, hs]
  · rw [step, hs]

/-- Settles O7: an effect comes with no failed check and is not Faulted; a fault comes with a failed check. -/
theorem instructionFaultsExactlyWhenItDoesNotExecute : Obligations.InstructionFaultsExactlyWhenItDoesNotExecute := by
  intro i s hs
  refine ⟨_, exec_eq i s, ?_⟩
  obtain ⟨hx, ht⟩ | ⟨r, hfailed, ht⟩ := exec_cases (exec_eq i s) <;> rw [ht]
  · exact iff_of_true (effect_not_faulted s i hs) hx
  · have hnot : ¬ s.Executes i := fun hx => nomatch (checks_hold_iff i s).2 hx _ hfailed
    exact iff_of_false (fun h => h rfl) hnot

/-! ### Runs -/

/-- While a run has not ended a step exists (R80, R81). -/
theorem exists_step_of_not_terminal {s : State} (h : s.terminal = false) : ∃ t, step s = .next t := by
  refine exists_step_of_canStep ?_
  cases hr : s.runState with
  | ready => exact .inl hr
  | running => exact .inr hr
  | halted | faulted => simp [State.terminal, hr] at h

/-- In a terminal run state no step exists (R81). -/
theorem step_ne_next_of_terminal {s : State} (h : s.terminal = true) (t : State) : step s ≠ .next t := by
  intro ht
  obtain ⟨hs, _⟩ := step_cases ht
  rcases (terminal_iff s).1 h with hr | hr <;> simp [State.CanStep, hr] at hs

/-- A run goes on from where a shorter run ended (R80). -/
theorem runFor_add (k m : Nat) (s : State) : runFor (k + m) s = runFor m (runFor k s) := by
  induction k generalizing s with
  | zero => rw [Nat.zero_add]; rfl
  | succ k ih =>
    cases hend : s.terminal with
    | true => rw [runFor_terminal hend, runFor_terminal hend, runFor_terminal hend]
    | false =>
      obtain ⟨t, ht⟩ := exists_step_of_not_terminal hend
      rw [Nat.add_right_comm, runFor_succ hend ht, runFor_succ hend ht, ih]

/-- What every step keeps, every run keeps. -/
theorem runFor_induction {P : State → Prop} (hstep : ∀ s t, P s → step s = .next t → P t) (k : Nat) {s : State}
    (h : P s) : P (runFor k s) := by
  induction k generalizing s with
  | zero => exact h
  | succ k ih =>
    cases hend : s.terminal with
    | true => rwa [runFor_terminal hend]
    | false =>
      obtain ⟨t, ht⟩ := exists_step_of_not_terminal hend
      rw [runFor_succ hend ht]
      exact ih (hstep s t h ht)

/-- Settles O10: one more step allowed is a run of one step from where the run ended. -/
theorem runRepeatsStepUntilItEnds : Obligations.RunRepeatsStepUntilItEnds := by
  refine ⟨fun _ => rfl, fun k s hh hf => ?_, fun k m s hend => ?_⟩
  · have hend : (runFor k s).terminal = false := by simp [State.terminal, hh, hf]
    obtain ⟨t, ht⟩ := exists_step_of_not_terminal hend
    exact ⟨t, ht, by rw [runFor_add, runFor_succ hend ht]; rfl⟩
  · have hend : (runFor k s).terminal = true := (terminal_iff _).2 hend
    exact ⟨step_ne_next_of_terminal hend, by rw [runFor_add, runFor_terminal hend]⟩

/-! ### The load -/

/-- An accepted load changes memory and sets the load bit, and nothing else (R90). -/
theorem load_next_eq {bytes : List Byte} {s t : State} (h : load bytes s = .next t) :
    t = { s with mem := (s.memWriteBytes 0#8 bytes).mem, loaded := true } := by
  obtain ⟨_, _, _, rfl⟩ := load_next h
  rw [memWriteBytes_mem_only]

/-- A load keeps the invariant, which does not read the load bit. -/
theorem load_inv {bytes : List Byte} {s t : State} (hinv : s.Inv) (h : load bytes s = .next t) : t.Inv := by
  rw [load_next_eq h]
  obtain ⟨hmem, hrest⟩ := hinv
  exact ⟨memWriteBytes_wf bytes hmem 0#8, hrest⟩

/-- Settles O4: a load keeps the invariant, and a run keeps what every step keeps. -/
theorem loadAndRunKeepTheInvariant : Obligations.LoadAndRunKeepTheInvariant :=
  ⟨fun _ _ _ => load_inv, fun k _ => runFor_induction everyStepKeepsTheInvariant k⟩

/-- Settles O43: inside its contract the load is accepted, and its bytes read back. -/
theorem loadCopiesTheProgram : Obligations.LoadCopiesTheProgram := by
  intro bytes s hinv hr hl hlen
  obtain ⟨hwf, _⟩ := hinv
  obtain ⟨_, _, _, hread⟩ := memoryReadsTheLastWrite
  have hload := load_accepted hr hl hlen
  refine ⟨_, hload, fun a => hread bytes s _ a hwf hload, rfl, ?_⟩
  rw [load_next_eq hload, ← hl]

/-- The load is accepted exactly inside its contract (R90). -/
theorem exists_load_next_iff (bytes : List Byte) (s : State) :
    (∃ t, load bytes s = .next t) ↔ s.runState = .ready ∧ s.loaded = false ∧ bytes.length ≤ 256 := by
  constructor
  · rintro ⟨t, h⟩
    obtain ⟨hr, hl, hlen, _⟩ := load_next h
    exact ⟨hr, hl, hlen⟩
  · rintro ⟨hr, hl, hlen⟩
    exact ⟨_, load_accepted hr hl hlen⟩

/-- The load is refused exactly when it is not accepted: it never ends in a fault (R90). -/
theorem exists_load_refused_iff (bytes : List Byte) (s : State) :
    (∃ r, load bytes s = .refused r) ↔ ¬ ∃ t, load bytes s = .next t := by
  unfold load
  split_ifs <;> simp

/-- No step changes the load bit. -/
theorem step_loaded {s t : State} (h : step s = .next t) : t.loaded = s.loaded := by
  obtain ⟨_, ⟨i, _, hx⟩ | ⟨r, _, rfl⟩⟩ := step_cases h
  · obtain ⟨_, hloaded, _⟩ := controlStateFrame i _ t hx
    exact hloaded
  · rfl

/-- Settles O44: an accepted load sets the load bit, no step clears it, and a set bit refuses the load. -/
theorem loadIsRefusedOutsideItsContract : Obligations.LoadIsRefusedOutsideItsContract := by
  refine ⟨fun bytes s => ⟨?_, exists_load_next_iff bytes s⟩, fun bytes s t h k later => ?_⟩
  · rw [exists_load_refused_iff, exists_load_next_iff]
  · have hloaded : t.loaded = true := by rw [load_next_eq h]
    have hkept : (runFor k t).loaded = true :=
      runFor_induction (P := fun u => u.loaded = true) (fun _ _ hu hstep => (step_loaded hstep).trans hu) k hloaded
    exact load_refused_of_loaded hkept later

/-! ### The operand fetch -/

/-- The addresses an operand fetch of `n` bytes from `k` after the pc on computes, in order (R66, R82). -/
def State.operandAddresses (s : State) (k n : Nat) : List Int :=
  (List.range' k n).map fun j : Nat => (s.pc.toNat : Int) + j

/-- The operand fetch raises at its first rejected address (R82). -/
theorem fetchBytes_of_rejected {s : State} {k n : Nat} {a : Int}
    (h : (s.operandAddresses k n).find? (fun a => decide (AddressRejected s.params a)) = some a) :
    s.fetchBytes k n = .error { cause := .addressOverflow, info := some a } := by
  induction n generalizing k with
  | zero => cases h
  | succ n ih =>
    rw [State.operandAddresses, List.range'_succ, List.map_cons] at h
    by_cases hr : AddressRejected s.params (s.pc.toNat + k)
    · rw [List.find?_cons_of_pos (by simpa using hr)] at h
      cases h
      exact fetchBytes_rejected hr n
    · rw [List.find?_cons_of_neg (by simpa using hr)] at h
      rw [fetchBytes_accepted hr, ih h]
      rfl

/-- No row has more than two operand addresses (R60). -/
theorem operandAddresses_operandCount (s : State) (k : Op) :
    s.operandAddresses 1 k.operandCount =
      [(s.pc.toNat : Int) + 1, (s.pc.toNat : Int) + 2].take k.operandCount := by
  cases k <;> rfl

/-- What the operand fetch raises, the fetch raises, before the operands are looked at (R82, R83). -/
theorem fetch_of_fetchBytes_error {s : State} {k : Op} {r : Raise} (hk : lookupOp s.params (s.memRead s.pc) = some k)
    (h : s.fetchBytes 1 k.operandCount = .error r) : s.fetch = .error r := by
  simp only [State.fetch, hk, opcodeOC_of_lookupOp hk, h]
  rfl

/-- Settles O20: under a legal map the byte at the pc selects `k`, and the fetch of its operands raises. -/
theorem operandFetchOverflowFaults : Obligations.OperandFetchOverflowFaults := by
  intro s k n hs hp hadm hbyte hn
  have hlook : lookupOp s.params (s.memRead s.pc) = some k := (lookupOp_eq_some_iff hp.1).2 ⟨hadm, hbyte.symm⟩
  rw [← operandAddresses_operandCount] at hn
  exact step_of_fetch_error hs (fetch_of_fetchBytes_error (s := { s with runState := .running }) hlook
    (fetchBytes_of_rejected hn))

/-! ### The pc advance -/

/-- An effect that neither jumps nor halts advances the pc by the length of its instruction (R84). -/
theorem effect_pc_of_op (s : State) {i : Instr} (h : i.op ∉ [Op.hlt, .call, .ret, .jmp, .jeq, .jne]) :
    (s.effect i).pc = s.pc + BitVec.ofNat 8 i.length := by
  cases i with
  | hlt | call | ret | jmp | jeq | jne => exact absurd (by simp [Instr.op]) h
  | _ => rfl

/-- A JUMP_IF_EQUAL is taken when E is set (R161). -/
theorem effect_jeq_pc (s : State) (a : Byte) :
    (s.effect (.jeq a)).pc = if s.equalBit then s.regs[operandIndex a] else s.pc + 2#8 := rfl

/-- A JUMP_IF_NOT_EQUAL is taken when E is clear (R162). -/
theorem effect_jne_pc (s : State) (a : Byte) :
    (s.effect (.jne a)).pc = if s.equalBit then s.pc + 2#8 else s.regs[operandIndex a] := rfl

/-- Settles O39: an instruction that completes has its effect. -/
theorem pcAdvancesByTheLength : Obligations.PcAdvancesByTheLength := by
  intro i s t h ht
  obtain ⟨_, rfl⟩ | ⟨r, _, rfl⟩ := exec_cases h
  · refine ⟨fun hi => ?_, ?_, ?_, ?_⟩
    · rw [effect_pc_of_op s hi, Instr.length, BitVec.ofNat_add, BitVec.add_assoc]
    · rintro rfl
      rfl
    · rintro ⟨a, rfl⟩ he
      rw [effect_jeq_pc, he]; rfl
    · rintro ⟨a, rfl⟩ he
      rw [effect_jne_pc, if_pos he]
  · exact absurd rfl ht

end Sys2Proof.Machine
end

section
/-!
PROOFS of the statements about the system instructions (41_system.md): what HALT and PRINT_REGISTER answer, and that
PRINT_REGISTER outputs what LOAD_IMMEDIATE wrote.
-/

namespace Sys2Proof.Machine

/-! ### HALT and PRINT_REGISTER -/

/-- Settles O21: HALT checks nothing. -/
theorem haltCompletes : Obligations.HaltCompletes :=
  exec_hlt

/-- Settles O22: the effect of PRINT_REGISTER is the state claimed. -/
theorem printRegisterCompletes : Obligations.PrintRegisterCompletes :=
  fun _ _ hx => exec_of_executes hx

/-! ### A step on an instruction's own bytes -/

/-- When memory at the pc holds the opcode byte and the operands of an instruction that executes, and no operand
address is rejected, a step has the instruction's effect (R61, R89). -/
theorem step_of_bytes {s : State} {i : Instr} {rest : List Byte} (hs : s.CanStep) (hmap : s.params.opcodes.WellFormed)
    (hadm : i.op.admitted s.params = true) (hop : s.memRead s.pc = s.params.opcodes.byteOf i.op)
    (hbytes : [s.memRead (s.pc + 1#8), s.memRead (s.pc + 2#8)] = i.operands ++ rest)
    (hacc : ∀ k : Nat, 1 ≤ k → k ≤ i.op.operandCount → ¬ AddressRejected s.params (s.pc.toNat + k))
    (hx : s.Executes i) : step s = .next (State.effect { s with runState := .running } i) := by
  have hlook : lookupOp s.params (s.memRead s.pc) = some i.op := (lookupOp_eq_some_iff hmap).2 ⟨hadm, hop.symm⟩
  have hdec := decode_cons_eq_ok_iff.2 ⟨hlook, hbytes⟩
  exact (step_of_decode hs hdec hacc).trans (exec_of_executes hx)

/-- With `n` bytes of room behind an address, no address up to `n` bytes further is rejected (R43). -/
theorem not_addressRejected_of_room {p : Params} {x : Byte} {n k : Nat}
    (hroom : p.addrOverflow = .wrap ∨ x.toNat + n ≤ 255) (hk : k ≤ n) : ¬ AddressRejected p (x.toNat + k) := by
  rintro ⟨hfault, hout⟩
  rcases hroom with hwrap | hle
  · rw [hwrap] at hfault
    cases hfault
  · omega

/-- A LOAD_IMMEDIATE with an accepted operand and room for its three bytes executes (R110). -/
theorem executes_ldi {s : State} {a v : Byte} (ha : ¬ OperandRejected s.params a)
    (hroom : s.params.addrOverflow = .wrap ∨ s.pc.toNat + 3 ≤ 255) : s.Executes (.ldi a v) := by
  have hpc : ¬ AddressRejected s.params (s.pc.toNat + (3 : Nat)) := not_addressRejected_of_room hroom le_rfl
  exact ⟨List.forall_mem_singleton.2 ha, List.forall_mem_nil _, List.forall_mem_singleton.2 hpc⟩

/-- A PRINT_REGISTER of a register that holds a value, with room for its two bytes, executes (R101). -/
theorem executes_prn {s : State} {a : Byte} (ha : ¬ OperandRejected s.params a)
    (hvalue : ¬ s.NoValue (operandIndex a)) (hroom : s.params.addrOverflow = .wrap ∨ s.pc.toNat + 2 ≤ 255) :
    s.Executes (.prn a) := by
  have hpc : ¬ AddressRejected s.params (s.pc.toNat + (2 : Nat)) := not_addressRejected_of_room hroom le_rfl
  exact ⟨List.forall_mem_singleton.2 ha, List.forall_mem_singleton.2 hvalue, List.forall_mem_singleton.2 hpc⟩

/-- A LOAD_IMMEDIATE leaves its register with a value (R22, R110). -/
theorem not_noValue_effect_ldi (s : State) (a v : Byte) : ¬ (s.effect (.ldi a v)).NoValue (operandIndex a) :=
  fun h => ((noValue_regWrite s (operandIndex a) (operandIndex a) v).1 h).2 rfl

/-- A LOAD_IMMEDIATE leaves its immediate in its register (R110). -/
theorem effect_ldi_register (s : State) (a v : Byte) : (s.effect (.ldi a v)).regs[operandIndex a] = v :=
  Vector.getElem_set_self (operandIndex a).isLt

/-- Settles O47: the first step writes the register and stops three bytes on, with memory as it was; the second finds
the PRINT_REGISTER there and the register written. -/
theorem loadImmediateThenPrintOutputsTheValue : Obligations.LoadImmediateThenPrintOutputsTheValue := by
  intro s a v hs hinv ha hroom hldi hreg himm hprn hreg'
  obtain ⟨_, _, _, ⟨hmap, _⟩, _⟩ := hinv
  let t := State.effect { s with runState := .running } (.ldi a v)
  have hroom3 : s.params.addrOverflow = .wrap ∨ s.pc.toNat + 3 ≤ 255 := hroom.imp_right fun h => by omega
  have hroom2 : t.params.addrOverflow = .wrap ∨ t.pc.toNat + 2 ≤ 255 := hroom.imp_right fun h => by
    show (s.pc + 3#8).toNat + 2 ≤ 255
    bv_omega
  have hfirst : step s = .next t :=
    step_of_bytes (rest := []) hs hmap rfl hldi (by rw [hreg, himm]; rfl)
      (fun k _ hk => not_addressRejected_of_room hroom3 (Nat.le_succ_of_le hk)) (executes_ldi ha hroom3)
  have hoperand : t.memRead (t.pc + 1#8) = a := by
    have haddr : s.pc + 3#8 + 1#8 = s.pc + 4#8 := BitVec.add_assoc ..
    rw [← hreg', ← haddr]
    rfl
  have hsecond : step t = .next (State.effect { t with runState := .running } (.prn a)) :=
    step_of_bytes (rest := [t.memRead (t.pc + 2#8)]) (.inr rfl) hmap rfl hprn (by rw [hoperand]; rfl)
      (fun k _ hk => not_addressRejected_of_room hroom2 (Nat.le_succ_of_le hk))
      (executes_prn ha (not_noValue_effect_ldi _ a v) hroom2)
  have hvalue : t.regs[operandIndex a] = v := effect_ldi_register _ a v
  refine ⟨t, _, hfirst, hsecond, BitVec.add_assoc s.pc 3#8 2#8, ?_⟩
  rw [← hvalue]
  rfl

end Sys2Proof.Machine
end

section
/-!
PROOFS of the statement about the load-immediate instruction (42_load_immediate.md).
-/

namespace Sys2Proof.Machine

/-- Settles O23: the effect of LOAD_IMMEDIATE is the state claimed. -/
theorem loadImmediateCompletes : Obligations.LoadImmediateCompletes :=
  fun _ _ _ hx => exec_of_executes hx

end Sys2Proof.Machine
end

section
/-!
PROOFS of the statements about the ALU (43_alu.md): its three operations, and what MULTIPLY, ADD and COMPARE answer.
-/

namespace Sys2Proof.Machine

/-! ### What COMPARE computes -/

/-- `sval` is the library's two's-complement reading (R12). -/
theorem sval_eq_toInt (v : Byte) : sval v = v.toInt := by
  rw [sval, BitVec.toInt_eq_toNat_cond]
  split_ifs <;> omega

/-- `cmpval` orders bytes as signed or unsigned by `CMP_SIGNED` (R122). -/
theorem cmpval_lt_iff (p : Params) (x y : Byte) :
    cmpval p x < cmpval p y ↔ (if p.cmpSigned then x.slt y else x.ult y) = true := by
  cases h : p.cmpSigned
  case false => simp [cmpval, h, BitVec.ult_iff_lt, BitVec.lt_def]
  case true => simp [cmpval, h, sval_eq_toInt, BitVec.slt_iff_toInt_lt]

/-- The `FL` value of a comparison (R122), in the library's orders of bytes. -/
theorem compareFlags_eq (p : Params) (x y : Byte) :
    compareFlags p x y = 1#8 <<< (if x = y then p.flLayout.e
      else if (if p.cmpSigned then y.slt x else y.ult x) then p.flLayout.g else p.flLayout.l).val := by
  simp only [compareFlags, flClear, BitVec.zero_or, cmpval_inj, gt_iff_lt, cmpval_lt_iff, ← apply_ite flBit]
  rfl

/-- Settles O42, operation by operation: the bytes' sum and product are those of their numbers modulo 256. -/
theorem theAluHasThreeOperations : Obligations.TheAluHasThreeOperations := by
  intro p k x y
  cases k with
  | add =>
    have hsum : x + y = BitVec.ofNat 8 ((x.toNat + y.toNat) % 256) := BitVec.eq_of_toNat_eq (by simp)
    exact .inl ⟨rfl, by rw [alu_add, hsum]⟩
  | multiply =>
    have hproduct : x * y = BitVec.ofNat 8 ((x.toNat * y.toNat) % 256) := BitVec.eq_of_toNat_eq (by simp)
    exact .inr (.inl ⟨rfl, by rw [alu_multiply, hproduct]⟩)
  | compare => exact .inr (.inr ⟨rfl, by rw [alu, compareFlags_eq]⟩)

/-! ### MULTIPLY, ADD and COMPARE -/

/-- Settles O24: the effects of MULTIPLY and ADD are the states claimed. -/
theorem multiplyAndAddComplete : Obligations.MultiplyAndAddComplete :=
  ⟨fun _ _ _ hx => exec_of_executes hx, fun _ _ _ hx => exec_of_executes hx⟩

/-- Settles O25: the effect of COMPARE is the state claimed, once its `FL` is written in the library's orders. -/
theorem compareCompletes : Obligations.CompareCompletes := by
  intro s a b hx x y greater
  rw [exec_of_executes hx, State.effect, compareFlags_eq]

end Sys2Proof.Machine
end

section
/-!
PROOFS of the statements about the stack instructions (44_stack.md): what PUSH and POP answer, that PUSH and CALL store
one byte, and that a POP after a PUSH of the same register restores the registers.
-/

namespace Sys2Proof.Machine

/-! ### PUSH and POP -/

/-- Settles O26: the effect of PUSH is the state claimed. -/
theorem pushCompletes : Obligations.PushCompletes :=
  fun _ _ hx => exec_of_executes hx

/-- Settles O27: the effect of POP is the state claimed. -/
theorem popCompletes : Obligations.PopCompletes :=
  fun _ _ hx => exec_of_executes hx

/-! ### The one byte PUSH and CALL store -/

/-- PUSH and CALL leave every byte but the one below the stack top (R42, R140, R150). -/
theorem memRead_effect_of_ne (s : State) {i : Instr} {o b : Byte} (hi : i = .push o ∨ i = .call o)
    (hb : b ≠ s.regs[7] - 1#8) : (s.effect i).memRead b = s.memRead b := by
  rcases hi with rfl | rfl <;> exact memRead_memWrite_of_ne s _ hb

/-- A PUSH or CALL that executes has an accepted stack address, the one below the stack top (R43, R140, R150). -/
theorem addr_sp_of_executes {s : State} {i : Instr} {o : Byte} (hi : i = .push o ∨ i = .call o) (hx : s.Executes i) :
    addr s.params (s.sp.toNat - 1) = .ok (s.regs[7] - 1#8) := by
  obtain ⟨_, _, haddr⟩ := hx
  have hsp : ¬ AddressRejected s.params (s.sp.toNat - 1) := by
    rcases hi with rfl | rfl <;> exact haddr _ List.mem_cons_self
  rw [addr_accepted hsp, u8_sub_one]
  rfl

/-- Settles O36: a fault changes no byte; an effect changes the one at the accepted address, and there is one. -/
theorem pushAndCallStoreOneByte : Obligations.PushAndCallStoreOneByte := by
  intro o i s t hi h
  rcases exec_cases h with ⟨hx, rfl⟩ | ⟨r, _, rfl⟩
  · rw [addr_sp_of_executes hi hx]
    refine ⟨fun a ha b hb => ?_, fun e he => ?_⟩
    · cases ha
      exact memRead_effect_of_ne s hi hb
    · cases he
  · exact ⟨fun _ _ _ _ => memRead_congr rfl _, fun _ _ _ => memRead_congr rfl _⟩

/-! ### A POP after a PUSH of the same register -/

/-- The address below a byte that is not 0 is never rejected (R43). -/
theorem not_addressRejected_sub_one {p : Params} {x : Byte} (h : p.addrOverflow = .wrap ∨ 1 ≤ x.toNat) :
    ¬ AddressRejected p (x.toNat - 1) := by
  rintro ⟨hfault, hout⟩
  rcases h with hwrap | hle
  · rw [hwrap] at hfault
    cases hfault
  · omega

/-- A PUSH of a register that holds a value, with room below the stack top and behind the pc, executes (R140). -/
theorem executes_push {s : State} {a : Byte} (ha : ¬ OperandRejected s.params a)
    (hvalue : ¬ s.NoValue (operandIndex a)) (hsp : s.params.addrOverflow = .wrap ∨ 1 ≤ s.regs[7].toNat)
    (hroom : s.params.addrOverflow = .wrap ∨ s.pc.toNat + 2 ≤ 255) : s.Executes (.push a) := by
  have hpc : ¬ AddressRejected s.params (s.pc.toNat + (2 : Nat)) := not_addressRejected_of_room hroom le_rfl
  exact ⟨List.forall_mem_singleton.2 ha, List.forall_mem_singleton.2 hvalue,
    List.forall_mem_cons.2 ⟨not_addressRejected_sub_one hsp, List.forall_mem_singleton.2 hpc⟩⟩

/-- A POP with room above the byte it increments and behind the pc executes (R141). -/
theorem executes_pop {s : State} {a : Byte} (ha : ¬ OperandRejected s.params a)
    (hsp : s.params.addrOverflow = .wrap ∨ (s.popBase a).toNat + 1 ≤ 255)
    (hroom : s.params.addrOverflow = .wrap ∨ s.pc.toNat + 2 ≤ 255) : s.Executes (.pop a) := by
  have hinc : ¬ AddressRejected s.params ((s.popBase a).toNat + (1 : Nat)) := not_addressRejected_of_room hsp le_rfl
  have hpc : ¬ AddressRejected s.params (s.pc.toNat + (2 : Nat)) := not_addressRejected_of_room hroom le_rfl
  exact ⟨List.forall_mem_singleton.2 ha, List.forall_mem_nil _,
    List.forall_mem_cons.2 ⟨hinc, List.forall_mem_singleton.2 hpc⟩⟩

/-- A PUSH moves the stack pointer down by 1 (R140). -/
theorem effect_push_sp (s : State) (a : Byte) : (s.effect (.push a)).regs[7] = s.regs[7] - 1#8 :=
  Vector.getElem_set_self (by decide)

/-- The registers a POP leaves: its own with the byte at the stack top, then the stack pointer (R141). -/
theorem effect_pop_regs (s : State) (a : Byte) : (s.effect (.pop a)).regs =
    (s.regs.set (operandIndex a) (s.memRead s.regs[7])).set 7 (s.popBase a + 1#8) := rfl

/-- Registers are as before when register 7 gets its old value back last, and the other one written, if it is
another, got its own. -/
theorem set_set_set_seven_eq_self {xs : Vector Byte 8} {r : RegIndex} {c v : Byte} (h : r ≠ 7 → v = xs[r]) :
    ((xs.set 7 c).set r v).set 7 xs[7] = xs := by
  by_cases hr : r = 7
  · subst hr
    simp
  · have hne : (7 : Nat) ≠ r := fun e => hr (Fin.ext e.symm)
    rw [h hr, Vector.set_comm _ _ hne]
    simp

section
variable {s : State} (hwf : Memory.wf s.mem = true) (a : Byte)
include hwf

/-- The cell below the old stack top holds the pushed value (R140). -/
theorem memRead_effect_push_self : (s.effect (.push a)).memRead (s.regs[7] - 1#8) =
    if operandIndex a = 7 then s.regs[7] - 1#8 else s.regs[operandIndex a] :=
  (memRead_memWrite hwf ..).trans (if_pos rfl)

/-- The value a POP increments after a PUSH of its register is the decremented stack pointer, R7 included (R140,
R141). -/
theorem popBase_effect_push : (s.effect (.push a)).popBase a = s.regs[7] - 1#8 := by
  rw [State.popBase, effect_push_sp, memRead_effect_push_self hwf]
  split <;> rfl

/-- A POP after a PUSH of its register has the registers of before the PUSH (R143). -/
theorem regs_effect_pop_effect_push : ((s.effect (.push a)).effect (.pop a)).regs = s.regs := by
  rw [effect_pop_regs, popBase_effect_push hwf, BitVec.sub_add_cancel, effect_push_sp, memRead_effect_push_self hwf]
  exact set_set_set_seven_eq_self fun hne => if_neg hne

end

/-- Settles O45: the PUSH stores into neither byte of the POP, so the second step finds the POP behind it, with the
pushed value in the cell at the stack pointer. -/
theorem pushThenPopRoundTrip : Obligations.PushThenPopRoundTrip := by
  intro s a hs hinv ha hvalue hroom hpush hreg hpop hreg' hne2 hne3
  obtain ⟨hwf, _, _, ⟨hmap, _⟩, _⟩ := hinv
  let t := State.effect { s with runState := .running } (.push a)
  have hsp : s.params.addrOverflow = .wrap ∨ 1 ≤ s.regs[7].toNat := hroom.imp_right And.right
  have hroomPush : s.params.addrOverflow = .wrap ∨ s.pc.toNat + 2 ≤ 255 := hroom.imp_right fun h => by omega
  have hroomPop : t.params.addrOverflow = .wrap ∨ t.pc.toNat + 2 ≤ 255 := hroom.imp_right fun h => by
    show (s.pc + 2#8).toNat + 2 ≤ 255
    bv_omega
  have hroomSp : t.params.addrOverflow = .wrap ∨ (t.popBase a).toNat + 1 ≤ 255 := hroom.imp_right fun h => by
    have hbase : t.popBase a = s.regs[7] - 1#8 := popBase_effect_push hwf a
    rw [hbase]
    bv_omega
  have hfirst : step s = .next t :=
    step_of_bytes (rest := [s.memRead (s.pc + 2#8)]) hs hmap rfl hpush (by rw [hreg]; rfl)
      (fun k _ hk => not_addressRejected_of_room hroomPush (Nat.le_succ_of_le hk))
      (executes_push ha hvalue hsp hroomPush)
  have hopcode : t.memRead t.pc = s.params.opcodes.pop :=
    (memRead_effect_of_ne _ (.inl rfl) hne2.symm).trans hpop
  have hoperand : t.memRead (t.pc + 1#8) = a := by
    have haddr : t.pc + 1#8 = s.pc + 3#8 := BitVec.add_assoc ..
    rw [haddr]
    exact (memRead_effect_of_ne _ (.inl rfl) hne3.symm).trans hreg'
  have hsecond : step t = .next (t.effect (.pop a)) :=
    step_of_bytes (rest := [t.memRead (t.pc + 2#8)]) (.inr rfl) hmap rfl hopcode (by rw [hoperand]; rfl)
      (fun k _ hk => not_addressRejected_of_room hroomPop (Nat.le_succ_of_le hk)) (executes_pop ha hroomSp hroomPop)
  exact ⟨t, _, hfirst, hsecond, regs_effect_pop_effect_push hwf a, BitVec.add_assoc .., rfl,
    memRead_effect_push_self hwf a⟩

end Sys2Proof.Machine
end

section
/-!
PROOFS of the statements about the subroutine instructions (45_call_return.md): what CALL and RETURN answer, and that a
RETURN right after a CALL comes back behind it.
-/

namespace Sys2Proof.Machine

/-! ### CALL and RETURN -/

/-- Settles O28: the effect of CALL is the state claimed. -/
theorem callCompletes : Obligations.CallCompletes :=
  fun _ _ hx => exec_of_executes hx

/-- Settles O29: the effect of RETURN is the state claimed. -/
theorem returnCompletes : Obligations.ReturnCompletes :=
  fun _ hx => exec_of_executes hx

/-! ### A RETURN right after a CALL -/

/-- When the address below a byte is accepted, so is the way back up from it (R43). -/
theorem not_addressRejected_sub_one_add_one {p : Params} {x : Byte} (h : ¬ AddressRejected p (x.toNat - 1)) :
    ¬ AddressRejected p ((x - 1#8).toNat + 1) := by
  rintro ⟨hfault, hout⟩
  have hpos : 1 ≤ x.toNat := by
    by_contra hzero
    exact h ⟨hfault, by omega⟩
  have hback : (x - 1#8).toNat + 1 = x.toNat := by bv_omega
  omega

/-- A CALL moves the stack pointer down by 1 (R150). -/
theorem effect_call_sp (s : State) (a : Byte) : (s.effect (.call a)).regs[7] = s.regs[7] - 1#8 :=
  Vector.getElem_set_self (by decide)

/-- A RETURN after a CALL that executes does so too: its one address is the CALL's stack address plus 1 (R151). -/
theorem executes_ret_effect_call {s : State} {a : Byte} (hx : s.Executes (.call a)) :
    (s.effect (.call a)).Executes .ret := by
  obtain ⟨_, _, haddr⟩ := hx
  have hsp : ¬ AddressRejected s.params (s.regs[7].toNat - 1) := haddr _ List.mem_cons_self
  have hret : ¬ AddressRejected s.params ((s.effect (.call a)).regs[7].toNat + 1) := by
    rw [effect_call_sp]
    exact not_addressRejected_sub_one_add_one hsp
  exact ⟨List.forall_mem_nil _, List.forall_mem_nil _, List.forall_mem_singleton.2 hret⟩

/-- A RETURN after a CALL pops the return address the CALL stored (R150, R151). -/
theorem pc_effect_ret_effect_call {s : State} (hwf : Memory.wf s.mem = true) (a : Byte) :
    ((s.effect (.call a)).effect .ret).pc = s.pc + 2#8 := by
  show (s.effect (.call a)).memRead (s.effect (.call a)).regs[7] = s.pc + 2#8
  rw [effect_call_sp]
  exact (memRead_memWrite hwf ..).trans (if_pos rfl)

/-- A RETURN after a CALL has the registers of before the CALL: it moves the stack pointer back up (R150, R151). -/
theorem regs_effect_ret_effect_call (s : State) (a : Byte) : ((s.effect (.call a)).effect .ret).regs = s.regs := by
  show (s.regs.set 7 (s.regs[7] - 1#8)).set 7 ((s.effect (.call a)).regs[7] + 1#8) = s.regs
  rw [effect_call_sp, BitVec.sub_add_cancel, Vector.set_set, Vector.set_getElem_self]

/-- Settles O46: the RETURN executes whenever the CALL does, and undoes it but for the pc, which it pops; neither
writes `FL`, emits or ends the run. -/
theorem returnAfterCallComesBack : Obligations.ReturnAfterCallComesBack :=
  fun s a hwf hx => ⟨_, _, exec_of_executes hx, exec_of_executes (executes_ret_effect_call hx),
    pc_effect_ret_effect_call hwf a, regs_effect_ret_effect_call s a, rfl, rfl, rfl⟩

end Sys2Proof.Machine
end

section
/-!
PROOFS of the statements about the jumps (46_branch.md): what JUMP answers, and what the conditional jumps answer when
taken and when not.
-/

namespace Sys2Proof.Machine

/-! ### The two sides of a conditional jump -/

/-- JUMP_IF_EQUAL jumps and clears `FL` when E is set, and goes on otherwise (R161). -/
theorem effect_jeq (s : State) (a : Byte) : s.effect (.jeq a) =
    if s.equalBit then { s with pc := s.regs[operandIndex a], fl := 0#8 } else { s with pc := s.pc + 2#8 } := by
  cases h : s.equalBit <;> simp only [State.effect, h] <;> rfl

/-- JUMP_IF_NOT_EQUAL goes on when E is set, and jumps and clears `FL` otherwise (R162). -/
theorem effect_jne (s : State) (a : Byte) : s.effect (.jne a) =
    if s.equalBit then { s with pc := s.pc + 2#8 } else { s with pc := s.regs[operandIndex a], fl := 0#8 } := by
  cases h : s.equalBit <;> simp only [State.effect, h] <;> rfl

/-! ### JUMP and the conditional jumps -/

/-- Settles O30: the effect of JUMP is the state claimed. -/
theorem jumpCompletes : Obligations.JumpCompletes :=
  fun _ _ hx => exec_of_executes hx

/-- Settles O31: E set is the jumping side of JUMP_IF_EQUAL, E clear that of JUMP_IF_NOT_EQUAL. -/
theorem takenConditionalJumpsComplete : Obligations.TakenConditionalJumpsComplete := by
  refine ⟨fun s a hset hx => ?_, fun s a hclear hx => ?_⟩
  · rw [exec_of_executes hx, effect_jeq, if_pos hset]
  · rw [exec_of_executes hx, effect_jne, if_neg (Bool.eq_false_iff.1 hclear)]

/-- Settles O32: E clear is the other side of JUMP_IF_EQUAL, E set that of JUMP_IF_NOT_EQUAL. -/
theorem conditionalJumpsNotTakenComplete : Obligations.ConditionalJumpsNotTakenComplete := by
  refine ⟨fun s a hclear hx => ?_, fun s a hset hx => ?_⟩
  · rw [exec_of_executes hx, effect_jeq, if_neg (Bool.eq_false_iff.1 hclear)]
  · rw [exec_of_executes hx, effect_jne, if_pos hset]

end Sys2Proof.Machine
end

section
/-!
PROOFS of the statement about the faults (60_exceptions.md): which raises the fetch and the checks of an instruction can
end in, and that a step into Faulted changes the run state and the record alone.
-/

namespace Sys2Proof.Machine

/-! ### What is raised -/

/-- A raise with an info, of a cause some rule raises: any of R171 but `UnsupportedOperation` (R125). -/
def Raise.OfARule (r : Raise) : Prop :=
  ∃ (c : FaultCause) (info : Int), c ≠ .unsupportedOperation ∧ r = { cause := c, info := some info }

/-- A failed check of an instruction is a rejected operand, a register without a value or a rejected address. -/
theorem ofARule_of_mem_checks {s : State} {i : Instr} {r : Raise} (h : some r ∈ s.checks i) : r.OfARule := by
  simp only [State.checks, List.mem_append, List.mem_map] at h
  obtain (⟨o, _, ho⟩ | ⟨j, _, hj⟩) | ⟨n, _, hn⟩ := h
  · obtain ⟨_, ⟨⟩⟩ := Option.ite_none_right_eq_some.1 ho
    exact ⟨.badRegister, o.toNat, nofun, rfl⟩
  · obtain ⟨_, ⟨⟩⟩ := Option.ite_none_right_eq_some.1 hj
    exact ⟨.unwrittenRegister, j.val, nofun, rfl⟩
  · obtain ⟨_, ⟨⟩⟩ := Option.ite_none_right_eq_some.1 hn
    exact ⟨.addressOverflow, n, nofun, rfl⟩

/-- A fetch raises `IllegalOpcode` with the byte at the pc, or what its operand fetch raises (R82, R83). -/
theorem ofARule_of_fetch_error {s : State} {r : Raise} (h : s.fetch = .error r) : r.OfARule := by
  have hillegal : Raise.OfARule { cause := .illegalOpcode, info := some (s.memRead s.pc).toNat } :=
    ⟨.illegalOpcode, _, nofun, rfl⟩
  simp only [State.fetch] at h
  split at h
  · cases h; exact hillegal
  · cases hb : s.fetchBytes 1 (opcodeOC (s.memRead s.pc)) with
    | error e =>
      rw [hb] at h
      cases h
      obtain ⟨a, rfl⟩ := fetchBytes_error hb
      exact ⟨.addressOverflow, a, nofun, rfl⟩
    | ok bytes =>
      simp only [hb, bind, Except.bind] at h
      split at h
      · cases h
      · cases h; exact hillegal

/-! ### A step into Faulted -/

/-- A step ends in the effect of one instruction of the Running core, or a rule's raise takes the state before it into
Faulted (R173, R174). -/
theorem step_effect_or_fault {s t : State} (h : step s = .next t) :
    (∃ i, t = State.effect { s with runState := .running } i) ∨ ∃ r : Raise, r.OfARule ∧ t = s.enterFault r := by
  obtain ⟨_, ⟨i, _, hx⟩ | ⟨r, hf, rfl⟩⟩ := step_cases h
  · obtain ⟨_, rfl⟩ | ⟨r, hr, rfl⟩ := exec_cases hx
    · exact .inl ⟨i, rfl⟩
    · exact .inr ⟨r, ofARule_of_mem_checks hr, rfl⟩
  · exact .inr ⟨r, ofARule_of_fetch_error hf, rfl⟩

/-- Settles O8: no effect enters Faulted, so the step took a rule's raise. -/
theorem faultsArePreciseAndRecorded : Obligations.FaultsArePreciseAndRecorded := by
  intro s t h ht
  obtain ⟨i, rfl⟩ | ⟨r, ⟨c, info, hc, rfl⟩, rfl⟩ := step_effect_or_fault h
  · exact absurd ht (effect_not_faulted _ i nofun)
  · exact ⟨c, info, hc, enterFault_eq_faultedWith s _⟩

end Sys2Proof.Machine
end
